-- ==== Sys2Proof/Word.lean ====
section
/-! DEFINITION. The words of the machine: bytes, 16-bit words, 12-bit addresses, register numbers. -/

namespace Sys2Proof

/-- An 8-bit unsigned value: a register V0..VF, a timer, a memory byte (10_state.md R20, R27, R28, R60). -/
abbrev Byte := BitVec 8

/-- A 16-bit unsigned value: an opcode word, PC, I, a stack slot (10_state.md R22, R24, R25, R90). -/
abbrev Word := BitVec 16

/-- A byte address 0x000..0xFFF, and the 12-bit field `nnn` (20_memory.md R60, 30_encoding.md R91). -/
abbrev Addr := BitVec 12

/-- A general register number, the fields `x` and `y` (10_state.md R20, 30_encoding.md R91). -/
abbrev Reg := Fin 16

end Sys2Proof
end

