-- ==== Sys2Proof/Syntax.lean ====
section
/-! DEFINITION. The instruction set: one constructor per row of spec/opcode_table.json (30_encoding.md R94, 40_dispatch.md R134). -/

namespace Sys2Proof

/-- A decoded instruction with its fields: `x`, `y` register numbers, `n` a count 0..15, `kk` a byte, `nnn` a 12-bit
address (30_encoding.md R91, R92). A word of R96 is no instruction; see `Decoded.unknown`. -/
inductive Instr where
  /-- 00E0 CLS (R250). -/
  | cls
  /-- 00EE RET (R192). -/
  | ret
  /-- 0nnn SYS addr: every family-0 word other than 00E0 and 00EE (R136). -/
  | sys (nnn : Addr)
  /-- 1nnn JP addr (R190). -/
  | jp (nnn : Addr)
  /-- 2nnn CALL addr (R191). -/
  | call (nnn : Addr)
  /-- 3xkk SE Vx, byte (R194). -/
  | seByte (x : Reg) (kk : Byte)
  /-- 4xkk SNE Vx, byte (R195). -/
  | sneByte (x : Reg) (kk : Byte)
  /-- 5xy0 SE Vx, Vy (R196). -/
  | seReg (x y : Reg)
  /-- 6xkk LD Vx, byte (R150). -/
  | ldByte (x : Reg) (kk : Byte)
  /-- 7xkk ADD Vx, byte (R151). -/
  | addByte (x : Reg) (kk : Byte)
  /-- 8xy0 LD Vx, Vy (R152). -/
  | ldReg (x y : Reg)
  /-- 8xy1 OR Vx, Vy (R153). -/
  | orReg (x y : Reg)
  /-- 8xy2 AND Vx, Vy (R154). -/
  | andReg (x y : Reg)
  /-- 8xy3 XOR Vx, Vy (R155). -/
  | xorReg (x y : Reg)
  /-- 8xy4 ADD Vx, Vy (R156). -/
  | addReg (x y : Reg)
  /-- 8xy5 SUB Vx, Vy (R157). -/
  | sub (x y : Reg)
  /-- 8xy6 SHR Vx (, Vy): `y` is encoded and ignored (R158). -/
  | shr (x y : Reg)
  /-- 8xy7 SUBN Vx, Vy (R159). -/
  | subn (x y : Reg)
  /-- 8xyE SHL Vx (, Vy): `y` is encoded and ignored (R160). -/
  | shl (x y : Reg)
  /-- 9xy0 SNE Vx, Vy (R197). -/
  | sneReg (x y : Reg)
  /-- Annn LD I, addr (R220). -/
  | ldI (nnn : Addr)
  /-- Bnnn JP V0, addr (R193). -/
  | jpV0 (nnn : Addr)
  /-- Cxkk RND Vx, byte (R161). -/
  | rnd (x : Reg) (kk : Byte)
  /-- Dxyn DRW Vx, Vy, nibble (R251). -/
  | drw (x y : Reg) (n : Fin 16)
  /-- Ex9E SKP Vx (R273). -/
  | skp (x : Reg)
  /-- ExA1 SKNP Vx (R274). -/
  | sknp (x : Reg)
  /-- Fx07 LD Vx, DT (R270). -/
  | ldVxDt (x : Reg)
  /-- Fx0A LD Vx, K (R275). -/
  | ldVxK (x : Reg)
  /-- Fx15 LD DT, Vx (R271). -/
  | ldDtVx (x : Reg)
  /-- Fx18 LD ST, Vx (R272). -/
  | ldStVx (x : Reg)
  /-- Fx1E ADD I, Vx (R221). -/
  | addI (x : Reg)
  /-- Fx29 LD F, Vx (R222). -/
  | ldF (x : Reg)
  /-- Fx33 LD B, Vx (R223). -/
  | ldB (x : Reg)
  /-- Fx55 LD [I], Vx (R224). -/
  | storeRegs (x : Reg)
  /-- Fx65 LD Vx, [I] (R225). -/
  | loadRegs (x : Reg)
  deriving DecidableEq, Repr

end Sys2Proof
end

