-- ==== Sys2Proof/WellFormed.lean ====
section
/-! DEFINITION. Well-formed instructions: those some word decodes to. -/

namespace Sys2Proof

/-- The one check beyond the field types: SYS stands for no word of the more specific rows 00E0 and 00EE
(30_encoding.md R94, R95). Every other combination of fields is an instruction. -/
def Instr.wf : Instr → Bool
  | .sys nnn => nnn != 0x0E0#12 && nnn != 0x0EE#12
  | _ => true

end Sys2Proof
end

