-- ==== Sys2Proof/Decode.lean ====
section
/-! DEFINITION. The decoder, total on every word and on any bytes; the encoder; the opcode table's masks
(30_encoding.md). -/

namespace Sys2Proof

/-! ### Fields of an opcode word (R91) -/

/-- `op[15:12]`, the family. -/
def opFamily (op : Word) : Nat := (op.extractLsb' 12 4).toNat

/-- `op[11:8]`, the first register. -/
def opX (op : Word) : Reg := Fin.ofNat 16 (op.extractLsb' 8 4).toNat

/-- `op[7:4]`, the second register. -/
def opY (op : Word) : Reg := Fin.ofNat 16 (op.extractLsb' 4 4).toNat

/-- `op[3:0]`, the count of Dxyn and the sub-function of families 5, 8 and 9. -/
def opN (op : Word) : Fin 16 := Fin.ofNat 16 (op.extractLsb' 0 4).toNat

/-- `op[7:0]`, the byte immediate and the sub-function of families E and F. -/
def opKK (op : Word) : Byte := op.extractLsb' 0 8

/-- `op[11:0]`, the address immediate. -/
def opNNN (op : Word) : Addr := op.extractLsb' 0 12

/-! ### The decode (R93 to R97) -/

/-- What a word decodes to: an instruction, or an unknown opcode rejected by name with its word (R134, R96). -/
inductive Decoded where
  | instr (i : Instr)
  | unknown (op : Word)
  deriving DecidableEq, Repr

/-- Family 0, the whole word compared (R93); 00E0 and 00EE win over 0nnn (R95). -/
def decodeFamily0 (op : Word) : Decoded :=
  if op = 0x00E0#16 then .instr .cls
  else if op = 0x00EE#16 then .instr .ret
  else .instr (.sys (opNNN op))

/-- Family 8, on the low nibble (R93, R94; sub-function numbers by D15). -/
def decodeFamily8 (op : Word) : Decoded :=
  let n := (opN op).val
  if n = 0x0 then .instr (.ldReg (opX op) (opY op))
  else if n = 0x1 then .instr (.orReg (opX op) (opY op))
  else if n = 0x2 then .instr (.andReg (opX op) (opY op))
  else if n = 0x3 then .instr (.xorReg (opX op) (opY op))
  else if n = 0x4 then .instr (.addReg (opX op) (opY op))
  else if n = 0x5 then .instr (.sub (opX op) (opY op))
  else if n = 0x6 then .instr (.shr (opX op) (opY op))
  else if n = 0x7 then .instr (.subn (opX op) (opY op))
  else if n = 0xE then .instr (.shl (opX op) (opY op))
  else .unknown op

/-- Family E, on the low byte (R93, R94). -/
def decodeFamilyE (op : Word) : Decoded :=
  let kk := (opKK op).toNat
  if kk = 0x9E then .instr (.skp (opX op))
  else if kk = 0xA1 then .instr (.sknp (opX op))
  else .unknown op

/-- Family F, on the low byte (R93, R94). -/
def decodeFamilyF (op : Word) : Decoded :=
  let kk := (opKK op).toNat
  if kk = 0x07 then .instr (.ldVxDt (opX op))
  else if kk = 0x0A then .instr (.ldVxK (opX op))
  else if kk = 0x15 then .instr (.ldDtVx (opX op))
  else if kk = 0x18 then .instr (.ldStVx (opX op))
  else if kk = 0x1E then .instr (.addI (opX op))
  else if kk = 0x29 then .instr (.ldF (opX op))
  else if kk = 0x33 then .instr (.ldB (opX op))
  else if kk = 0x55 then .instr (.storeRegs (opX op))
  else if kk = 0x65 then .instr (.loadRegs (opX op))
  else .unknown op

/-- The two-stage decode: the family, then the fixed digits within it (R93, R94). Total: every word is one
instruction or unknown (R97). -/
def decode (op : Word) : Decoded :=
  let f := opFamily op
  if f = 0x0 then decodeFamily0 op
  else if f = 0x1 then .instr (.jp (opNNN op))
  else if f = 0x2 then .instr (.call (opNNN op))
  else if f = 0x3 then .instr (.seByte (opX op) (opKK op))
  else if f = 0x4 then .instr (.sneByte (opX op) (opKK op))
  else if f = 0x5 then
    if (opN op).val = 0 then .instr (.seReg (opX op) (opY op)) else .unknown op
  else if f = 0x6 then .instr (.ldByte (opX op) (opKK op))
  else if f = 0x7 then .instr (.addByte (opX op) (opKK op))
  else if f = 0x8 then decodeFamily8 op
  else if f = 0x9 then
    if (opN op).val = 0 then .instr (.sneReg (opX op) (opY op)) else .unknown op
  else if f = 0xA then .instr (.ldI (opNNN op))
  else if f = 0xB then .instr (.jpV0 (opNNN op))
  else if f = 0xC then .instr (.rnd (opX op) (opKK op))
  else if f = 0xD then .instr (.drw (opX op) (opY op) (opN op))
  else if f = 0xE then decodeFamilyE op
  else decodeFamilyF op

/-! ### Bytes (R62, R90) -/

/-- The opcode word of two bytes, most significant first (20_memory.md R62). -/
def wordOfBytes (hi lo : Byte) : Word := BitVec.ofNat 16 (hi.toNat * 256 + lo.toNat)

/-- The most significant byte of a word. -/
def highByte (w : Word) : Byte := BitVec.ofNat 8 (w.toNat / 256)

/-- The least significant byte of a word. -/
def lowByte (w : Word) : Byte := BitVec.ofNat 8 w.toNat

/-- What a list of bytes begins with. Every instruction is 2 bytes (R90). -/
inductive BytesDecoded where
  /-- An instruction and the bytes after it. -/
  | instr (i : Instr) (rest : List Byte)
  /-- An unknown opcode and the bytes after it (R96). -/
  | unknown (op : Word) (rest : List Byte)
  /-- Fewer than two bytes: no opcode. -/
  | truncated
  deriving DecidableEq, Repr

/-- Decoding from bytes, total. -/
def decodeBytes : List Byte → BytesDecoded
  | hi :: lo :: rest =>
    match decode (wordOfBytes hi lo) with
    | .instr i => .instr i rest
    | .unknown op => .unknown op rest
  | _ => .truncated

/-- The bytes, as stored, of an instruction whose bits are `w` numbered as the opcode table numbers them: the one word,
every bit above `nbits` zero, most significant byte first. -/
def tableBytes (nbits w : Nat) : List Byte :=
  let word : Word := BitVec.ofNat 16 (w % 2 ^ nbits)
  [highByte word, lowByte word]

/-- The instruction the decoder reads from a table row's bits. -/
def decodeTableWord (nbits w : Nat) : Option Instr :=
  match decodeBytes (tableBytes nbits w) with
  | .instr i _ => some i
  | .unknown _ _ => none
  | .truncated => none

/-! ### The encoder -/

/-- The word whose four hex digits are `a b c d` (R91: bits 15..12, 11..8, 7..4, 3..0). -/
def hexWord (a b c d : Nat) : Word := BitVec.ofNat 16 (a * 4096 + b * 256 + c * 16 + d)

/-- The word of the pattern `fnnn`. -/
def encNNN (f : Nat) (nnn : Addr) : Word := BitVec.ofNat 16 (f * 4096 + nnn.toNat)

/-- The word of the pattern `fxkk`. -/
def encXKK (f : Nat) (x : Reg) (kk : Byte) : Word := BitVec.ofNat 16 (f * 4096 + x.val * 256 + kk.toNat)

/-- The word of an instruction, by the patterns of R94. -/
def encode : Instr → Word
  | .cls => hexWord 0x0 0x0 0xE 0x0
  | .ret => hexWord 0x0 0x0 0xE 0xE
  | .sys nnn => encNNN 0x0 nnn
  | .jp nnn => encNNN 0x1 nnn
  | .call nnn => encNNN 0x2 nnn
  | .seByte x kk => encXKK 0x3 x kk
  | .sneByte x kk => encXKK 0x4 x kk
  | .seReg x y => hexWord 0x5 x y 0x0
  | .ldByte x kk => encXKK 0x6 x kk
  | .addByte x kk => encXKK 0x7 x kk
  | .ldReg x y => hexWord 0x8 x y 0x0
  | .orReg x y => hexWord 0x8 x y 0x1
  | .andReg x y => hexWord 0x8 x y 0x2
  | .xorReg x y => hexWord 0x8 x y 0x3
  | .addReg x y => hexWord 0x8 x y 0x4
  | .sub x y => hexWord 0x8 x y 0x5
  | .shr x y => hexWord 0x8 x y 0x6
  | .subn x y => hexWord 0x8 x y 0x7
  | .shl x y => hexWord 0x8 x y 0xE
  | .sneReg x y => hexWord 0x9 x y 0x0
  | .ldI nnn => encNNN 0xA nnn
  | .jpV0 nnn => encNNN 0xB nnn
  | .rnd x kk => encXKK 0xC x kk
  | .drw x y n => hexWord 0xD x y n
  | .skp x => hexWord 0xE x 0x9 0xE
  | .sknp x => hexWord 0xE x 0xA 0x1
  | .ldVxDt x => hexWord 0xF x 0x0 0x7
  | .ldVxK x => hexWord 0xF x 0x0 0xA
  | .ldDtVx x => hexWord 0xF x 0x1 0x5
  | .ldStVx x => hexWord 0xF x 0x1 0x8
  | .addI x => hexWord 0xF x 0x1 0xE
  | .ldF x => hexWord 0xF x 0x2 0x9
  | .ldB x => hexWord 0xF x 0x3 0x3
  | .storeRegs x => hexWord 0xF x 0x5 0x5
  | .loadRegs x => hexWord 0xF x 0x6 0x5

/-- The two bytes of an instruction as they stand in memory (R62, R90). -/
def encodeBytes (i : Instr) : List Byte := [highByte (encode i), lowByte (encode i)]

/-! ### The opcode table as masks (R95), transcribed from spec/opcode_table.json and independent of `decode` -/

/-- A row of the table: a word `op` matches it when `op &&& mask = pattern` (R95). -/
structure OpcodeRow where
  pattern : Word
  mask : Word
  deriving DecidableEq, Repr

/-- A word matches a row (R95). -/
def OpcodeRow.fits (r : OpcodeRow) (op : Word) : Bool := op &&& r.mask == r.pattern

/-- The row of an instruction. -/
def Instr.row : Instr → OpcodeRow
  | .cls => ⟨0x00E0, 0xFFFF⟩
  | .ret => ⟨0x00EE, 0xFFFF⟩
  | .sys _ => ⟨0x0000, 0xF000⟩
  | .jp _ => ⟨0x1000, 0xF000⟩
  | .call _ => ⟨0x2000, 0xF000⟩
  | .seByte _ _ => ⟨0x3000, 0xF000⟩
  | .sneByte _ _ => ⟨0x4000, 0xF000⟩
  | .seReg _ _ => ⟨0x5000, 0xF00F⟩
  | .ldByte _ _ => ⟨0x6000, 0xF000⟩
  | .addByte _ _ => ⟨0x7000, 0xF000⟩
  | .ldReg _ _ => ⟨0x8000, 0xF00F⟩
  | .orReg _ _ => ⟨0x8001, 0xF00F⟩
  | .andReg _ _ => ⟨0x8002, 0xF00F⟩
  | .xorReg _ _ => ⟨0x8003, 0xF00F⟩
  | .addReg _ _ => ⟨0x8004, 0xF00F⟩
  | .sub _ _ => ⟨0x8005, 0xF00F⟩
  | .shr _ _ => ⟨0x8006, 0xF00F⟩
  | .subn _ _ => ⟨0x8007, 0xF00F⟩
  | .shl _ _ => ⟨0x800E, 0xF00F⟩
  | .sneReg _ _ => ⟨0x9000, 0xF00F⟩
  | .ldI _ => ⟨0xA000, 0xF000⟩
  | .jpV0 _ => ⟨0xB000, 0xF000⟩
  | .rnd _ _ => ⟨0xC000, 0xF000⟩
  | .drw _ _ _ => ⟨0xD000, 0xF000⟩
  | .skp _ => ⟨0xE09E, 0xF0FF⟩
  | .sknp _ => ⟨0xE0A1, 0xF0FF⟩
  | .ldVxDt _ => ⟨0xF007, 0xF0FF⟩
  | .ldVxK _ => ⟨0xF00A, 0xF0FF⟩
  | .ldDtVx _ => ⟨0xF015, 0xF0FF⟩
  | .ldStVx _ => ⟨0xF018, 0xF0FF⟩
  | .addI _ => ⟨0xF01E, 0xF0FF⟩
  | .ldF _ => ⟨0xF029, 0xF0FF⟩
  | .ldB _ => ⟨0xF033, 0xF0FF⟩
  | .storeRegs _ => ⟨0xF055, 0xF0FF⟩
  | .loadRegs _ => ⟨0xF065, 0xF0FF⟩

/-- The table in its own order: rows with mask FFFF before the 0nnn row (R95). -/
def opcodeTable : List OpcodeRow :=
  [⟨0x00E0, 0xFFFF⟩, ⟨0x00EE, 0xFFFF⟩, ⟨0x0000, 0xF000⟩, ⟨0x1000, 0xF000⟩, ⟨0x2000, 0xF000⟩,
    ⟨0x3000, 0xF000⟩, ⟨0x4000, 0xF000⟩, ⟨0x5000, 0xF00F⟩, ⟨0x6000, 0xF000⟩, ⟨0x7000, 0xF000⟩] ++
  [⟨0x8000, 0xF00F⟩, ⟨0x8001, 0xF00F⟩, ⟨0x8002, 0xF00F⟩, ⟨0x8003, 0xF00F⟩, ⟨0x8004, 0xF00F⟩,
    ⟨0x8005, 0xF00F⟩, ⟨0x8006, 0xF00F⟩, ⟨0x8007, 0xF00F⟩, ⟨0x800E, 0xF00F⟩] ++
  [⟨0x9000, 0xF00F⟩, ⟨0xA000, 0xF000⟩, ⟨0xB000, 0xF000⟩, ⟨0xC000, 0xF000⟩, ⟨0xD000, 0xF000⟩,
    ⟨0xE09E, 0xF0FF⟩, ⟨0xE0A1, 0xF0FF⟩] ++
  [⟨0xF007, 0xF0FF⟩, ⟨0xF00A, 0xF0FF⟩, ⟨0xF015, 0xF0FF⟩, ⟨0xF018, 0xF0FF⟩, ⟨0xF01E, 0xF0FF⟩,
    ⟨0xF029, 0xF0FF⟩, ⟨0xF033, 0xF0FF⟩, ⟨0xF055, 0xF0FF⟩, ⟨0xF065, 0xF0FF⟩]

end Sys2Proof
end

