-- ==== Sys2Proof/Config.lean ====
section
/-! DEFINITION. What is fixed for the machine (00_scope.md R7), and the free values the spec leaves open. -/

namespace Sys2Proof.Config

/-- MEM_SIZE (R7, 20_memory.md R60). -/
def memSize : Nat := 4096

/-- ROM_BASE (R7, 20_memory.md R61). -/
def romBase : Nat := 0x200

/-- ROM_MAX, in bytes (R7, 70_reset_and_hazards.md R352). -/
def romMax : Nat := 3584

/-- RESET_PC (R7, 10_state.md R22; the spec's decision D4). -/
def resetPc : Word := 0x200#16

/-- TICK_HZ (R7). Informative: no rule reads it (70_reset_and_hazards.md R370). -/
def tickHz : Nat := 60

/-- FREE VALUE. RND (R7): the byte the `rnd` input holds at the n-th draw (41_register_alu.md R161, D25).
No body can be seen, so whatever is proved holds for every sequence of bytes. DESIGN CHOICE, log 3. -/
opaque rnd : Nat → Byte

/-- FREE VALUE. INSTR_RATE_HZ (R7): OPEN; no rule reads it (R370). DESIGN CHOICE, log 16. -/
opaque instrRateHz : Nat

end Sys2Proof.Config
end

