-- ==== Sys2Proof/Machine/State.lean ====
section
/-! DEFINITION. The state of the machine as plain data, its reset value, and the reasons a step can stop (10_state.md). -/

namespace Sys2Proof.Machine

/-- The fatal run-time errors a Halted CORE records, codes 1 to 4 (60_exceptions.md R300). -/
inductive HaltCode where
  | stackOverflow
  | stackUnderflow
  | pcMisaligned
  | pcOutOfRange
  deriving DecidableEq, Repr

/-- MODE (10_state.md R31). -/
inductive Mode where
  | running
  | waitingForKey (t : Reg)
  | halted (code : HaltCode)
  deriving DecidableEq, Repr

/-- The unknown-opcode log event of a step: `unk_op` and `unk_pc` while `unk_evt` is 1 (10_state.md R41, R135). -/
structure UnkEvent where
  op : Word
  pc : Word
  deriving DecidableEq, Repr

/-- The events that reach the CORE from outside (10_state.md R40, R42). -/
inductive HostEvent where
  /-- The execution loop's `step` request: one dispatcher step (R130). -/
  | step
  /-- One 60 Hz `tick` (R320). -/
  | tick
  /-- `key_we` with `key_in`: the host writes the whole key array (R325). -/
  | keyWrite (keyIn : BitVec 16)
  /-- A host read of `fb`, `tone` or status (R42 (4)). -/
  | hostRead
  /-- `load_we` with `load_addr` and `load_data`: the loader writes one byte (R40, R351). -/
  | load (addr : Addr) (data : Byte)
  /-- The loader loads a ROM image, or finds its path unreadable (`none`) (R351, R352). -/
  | loadRom (image : Option (List Byte))
  /-- `rst` (R350). -/
  | rst
  deriving DecidableEq, Repr

/-- Memory (R60): the bytes that differ from the reset contents, by strictly rising address. See `Memory.wf`. -/
abbrev Memory := List Host.Cell

/-- FB (R29): 32 rows; bit `c` of row `r` is the pixel FB[r][c], as the port `fb` numbers it (R41; log 17). -/
abbrev Framebuffer := Vector (BitVec 64) 32

/-- Everything the spec gives the machine. -/
structure State where
  /-- V0..VF (R20); V15 is VF, the flag (R21). -/
  v : Vector Byte 16
  /-- I (R24). -/
  i : Word
  /-- PC: during a step, the address of the instruction being executed (R22). -/
  pc : Word
  /-- SP, 0..16 (R26). -/
  sp : Fin 17
  /-- STACK[0..15] (R25). -/
  stack : Vector Word 16
  /-- DT (R27). -/
  dt : Byte
  /-- ST (R28). -/
  st : Byte
  /-- FB (R29). -/
  fb : Framebuffer
  /-- KEY[k] is bit k (R30). -/
  key : BitVec 16
  /-- KEYPREV (R32). -/
  keyPrev : BitVec 16
  /-- MODE (R31). -/
  mode : Mode
  /-- The 4096 bytes of memory (R33). -/
  mem : Memory
  /-- The output `fb_strobe` of the last event (R41, R138, R139). -/
  fbStrobe : Bool
  /-- The outputs `unk_evt`, `unk_op`, `unk_pc` of the last event (R41, R135, R139). -/
  unk : Option UnkEvent
  /-- Whether a dispatcher step has been taken since reset: the loader's window is closed (R40, R351; DEDUCED, log 4). -/
  started : Bool
  /-- The model's own: how many random bytes were drawn (R161; log 3). -/
  draws : Nat
  /-- The model's own: the host events still to come, earliest first; when it is empty only `step` requests follow
  (R42; log 1). -/
  events : List HostEvent
  deriving DecidableEq, Repr

/-- What stops the machine. Raised by the loader before any step is taken, never by an instruction (60_exceptions.md
R300, 70_reset_and_hazards.md R352). -/
inductive Fault where
  /-- Code 6: the ROM's path is unreadable. Raised by the event `loadRom none`. Safe: there is no run of a failed load. -/
  | fileError
  /-- Code 7: the ROM has more than 3584 bytes. Raised by the event `loadRom`. Safe, as above. -/
  | romTooLarge
  deriving DecidableEq, Repr

/-- What the model gives no meaning. -/
inductive Refusal where
  /-- An instruction without a meaning. No arm of `exec` raises it: every instruction is modelled. Safe. -/
  | notModelled (mnemonic : String)
  /-- A loader write after the first step: "not part of the CORE's contract and the model admits none" (R351). Raised by
  the events `load` and `loadRom`, never by an instruction. Safe (log 5). -/
  | loaderAfterStart
  deriving DecidableEq, Repr

/-- The machine right after reset (10_state.md R43, 70_reset_and_hazards.md R350). Memory lists nothing: every byte is
its reset content, the font and zeros (`initialByte`). -/
def State.reset : State where
  v := Vector.replicate 16 0#8
  i := 0#16
  pc := Config.resetPc
  sp := 0
  stack := Vector.replicate 16 0#16
  dt := 0#8
  st := 0#8
  fb := Vector.replicate 32 0#64
  key := 0#16
  keyPrev := 0#16
  mode := .running
  mem := []
  fbStrobe := false
  unk := none
  started := false
  draws := 0
  events := []

end Sys2Proof.Machine
end

