-- ==== Sys2Proof/Machine/Ops.lean ====
section
/-! DEFINITION. The named operations over memory, registers, the call stack, the framebuffer and the step outputs;
instruction fetch; and the one exception entry, `State.raiseHalt`. -/

namespace Sys2Proof.Machine

/-! ### Memory (20_memory.md) -/

/-- FONT_BASE (R7, R73; the spec's decision D5, log 15). -/
def fontBase : Nat := 0x000

/-- The glyphs of the digits 0..F, five bytes each (R73; general knowledge by the spec's own mark, log 15). -/
def fontTable : List (List Byte) :=
  [[0xF0, 0x90, 0x90, 0x90, 0xF0], [0x20, 0x60, 0x20, 0x20, 0x70], [0xF0, 0x10, 0xF0, 0x80, 0xF0],
    [0xF0, 0x10, 0xF0, 0x10, 0xF0]] ++
  [[0x90, 0x90, 0xF0, 0x10, 0x10], [0xF0, 0x80, 0xF0, 0x10, 0xF0], [0xF0, 0x80, 0xF0, 0x90, 0xF0],
    [0xF0, 0x10, 0x20, 0x40, 0x40]] ++
  [[0xF0, 0x90, 0xF0, 0x90, 0xF0], [0xF0, 0x90, 0xF0, 0x10, 0xF0], [0xF0, 0x90, 0xF0, 0x90, 0x90],
    [0xE0, 0x90, 0xE0, 0x90, 0xE0]] ++
  [[0xF0, 0x80, 0x80, 0x80, 0xF0], [0xE0, 0x90, 0x90, 0x90, 0xE0], [0xF0, 0x80, 0xF0, 0x80, 0xF0],
    [0xF0, 0x80, 0xF0, 0x80, 0x80]]

/-- What an unlisted address reads as: its reset content, the font at FONT_BASE and 0 elsewhere (R72, R73). -/
def initialByte (a : Nat) : Byte :=
  if fontBase ≤ a ∧ a < fontBase + 80 then
    (fontTable.getD ((a - fontBase) / 5) []).getD ((a - fontBase) % 5) 0#8
  else 0#8

/-- The byte of a cell list at a key. -/
def Memory.find : Memory → Nat → Byte
  | [], a => initialByte a
  | (k, b) :: rest, a => if k = a then b else Memory.find rest a

/-- MemRead(a, 1) (00_scope.md R11). -/
def Memory.read (m : Memory) (a : Addr) : Byte := Memory.find m a.toNat

/-- Puts a byte at a key, keeping the keys strictly rising. -/
def Memory.insert (a : Nat) (b : Byte) : Memory → Memory
  | [] => [(a, b)]
  | (k, c) :: rest =>
    if a < k then (a, b) :: (k, c) :: rest
    else if a = k then (a, b) :: rest
    else (k, c) :: Memory.insert a b rest

/-- Takes a key out. -/
def Memory.erase (a : Nat) : Memory → Memory
  | [] => []
  | (k, c) :: rest => if k = a then Memory.erase a rest else (k, c) :: Memory.erase a rest

/-- MemWrite(a, 1, b) (R11). Writing the reset content takes the entry out, so that equal memories are equal lists. -/
def Memory.write (m : Memory) (a : Addr) (b : Byte) : Memory :=
  if b = initialByte a.toNat then Memory.erase a.toNat m else Memory.insert a.toNat b m

/-- Keys strictly rising from `lo`, within the 4096 bytes, and no entry equal to the reset content. -/
def Memory.wfFrom (lo : Nat) : Memory → Bool
  | [] => true
  | (k, b) :: rest =>
    decide (lo ≤ k) && decide (k < Config.memSize) && decide (b ≠ initialByte k) && Memory.wfFrom (k + 1) rest

/-- The canonical form of memory. -/
def Memory.wf (m : Memory) : Bool := Memory.wfFrom 0 m

/-! ### Registers (10_state.md) -/

/-- VF (R21). -/
def vf : Reg := 15

/-- Reads V[r]. -/
def State.reg (s : State) (r : Reg) : Byte := s.v[r.val]

/-- V[r] <- b. -/
def State.setReg (s : State) (r : Reg) (b : Byte) : State := { s with v := s.v.set r.val b }

/-- PC <- a. -/
def State.setPc (s : State) (a : Word) : State := { s with pc := a }

/-- The PC source SEQ, `PC + 2` (40_dispatch.md R137). -/
def State.seq (s : State) : State := s.setPc (s.pc + 2#16)

/-- The PC source SKIP, `PC + 4` (R137). -/
def State.skip (s : State) : State := s.setPc (s.pc + 4#16)

/-- SKIP when the condition holds, else SEQ (R137). -/
def State.skipIf (s : State) (cond : Bool) : State := if cond then s.skip else s.seq

/-- I <- w. -/
def State.setI (s : State) (w : Word) : State := { s with i := w }

/-- DT <- b. -/
def State.setDt (s : State) (b : Byte) : State := { s with dt := b }

/-- ST <- b. -/
def State.setSt (s : State) (b : Byte) : State := { s with st := b }

/-- MODE <- m. -/
def State.setMode (s : State) (m : Mode) : State := { s with mode := m }

/-- KEYPREV <- KEY (45_timers_keys.md R275, R276). -/
def State.latchKeys (s : State) : State := { s with keyPrev := s.key }

/-- KEY[k] (R30). -/
def State.keyDown (s : State) (k : Fin 16) : Bool := s.key.getLsbD k.val

/-- Replaces memory. -/
def State.setMem (s : State) (m : Memory) : State := { s with mem := m }

/-- MemRead(a, 1) of the state's memory. -/
def State.readMem (s : State) (a : Addr) : Byte := s.mem.read a

/-- MemWrite(a, 1, b) into the state's memory. -/
def State.writeMem (s : State) (a : Addr) (b : Byte) : State := s.setMem (s.mem.write a b)

/-- The byte the `rnd` input holds now: a free value (R161, log 3). -/
def State.rndByte (s : State) : Byte := Config.rnd s.draws

/-- Moves on to the next draw. -/
def State.nextDraw (s : State) : State := { s with draws := s.draws + 1 }

/-! ### The call stack (42_control_flow.md R198, R199) -/

/-- `push(v)`: STACK[SP] <- v; SP <- SP + 1. Its precondition SP < 16 is checked by CALL; past it nothing is written
("never indexes outside STACK[0..15]", R199). -/
def State.push (s : State) (w : Word) : State :=
  if h : s.sp.val < 16 then
    { s with stack := s.stack.set s.sp.val w, sp := ⟨s.sp.val + 1, by omega⟩ }
  else s

/-- STACK[SP - 1], the value `pop()` returns; its precondition SP > 0 is checked by RET. -/
def State.top (s : State) : Word := s.stack[s.sp.val - 1]'(by have := s.sp.isLt; omega)

/-- The effect of `pop()` on SP: SP <- SP - 1. No slot is written (R25, R199). -/
def State.drop (s : State) : State :=
  { s with sp := ⟨s.sp.val - 1, by have := s.sp.isLt; omega⟩ }

/-! ### Step outputs (40_dispatch.md R135, R138, R139) -/

/-- `emit UnknownOpcode(op, PC)` (R12, R135). -/
def State.emitUnknown (s : State) (op : Word) : State := { s with unk := some ⟨op, s.pc⟩ }

/-- `strobe FB` (R12, R138). -/
def State.strobe (s : State) : State := { s with fbStrobe := true }

/-- The outputs are 0 until the event sets them (R139, log 8). -/
def State.clearOutputs (s : State) : State := { s with fbStrobe := false, unk := none }

/-- A dispatcher step has been taken: the loader's window is closed (R351, log 4). -/
def State.start (s : State) : State := { s with started := true }

/-! ### Halt: the only exception entry (60_exceptions.md R302) -/

/-- `raise Halt(code)` (R12, R302): MODE <- Halted(code) and nothing else; PC stays at the faulting instruction, nothing
is saved, there is no vector. There is no return from it but reset (R303). -/
def State.raiseHalt (s : State) (code : HaltCode) : State := s.setMode (.halted code)

/-! ### Instruction fetch (20_memory.md R62, R65; 40_dispatch.md R131) -/

/-- The PC check of a fetch: range before alignment (R65, R305). -/
def fetchError (pc : Word) : Option HaltCode :=
  if pc.toNat > 0xFFE then some .pcOutOfRange
  else if pc.toNat % 2 = 1 then some .pcMisaligned
  else none

/-- The byte address of PC + k, for a PC the fetch check let through. -/
def pcAddr (pc : Word) (k : Nat) : Addr := BitVec.ofNat 12 (pc.toNat + k)

/-- `op <- MemRead(PC, 1) * 256 + MemRead(PC + 1, 1)` (R62, R131). -/
def State.fetchWord (s : State) : Word :=
  wordOfBytes (s.readMem (pcAddr s.pc 0)) (s.readMem (pcAddr s.pc 1))

/-! ### The framebuffer (10_state.md R29) -/

/-- A pixel position: row, column. -/
abbrev Pixel := Fin 32 × Fin 64

/-- FB[r][c]. -/
def Framebuffer.get (fb : Framebuffer) (p : Pixel) : Bool := fb[p.1.val].getLsbD p.2.val

/-- FB[r][c] <- FB[r][c] ^ 1. -/
def Framebuffer.flip (fb : Framebuffer) (p : Pixel) : Framebuffer :=
  fb.set p.1.val (fb[p.1.val] ^^^ BitVec.twoPow 64 p.2.val)

/-- Every cell 0. -/
def Framebuffer.clear : Framebuffer := Vector.replicate 32 0#64

/-- Replaces the framebuffer. -/
def State.setFb (s : State) (fb : Framebuffer) : State := { s with fb := fb }

/-- FB[r][c] of the state. -/
def State.pixel (s : State) (p : Pixel) : Bool := Framebuffer.get s.fb p

end Sys2Proof.Machine
end

