-- ==== Sys2Proof/Machine/Flags.lean ====
section
/-! DEFINITION. The flag computations: VF is the only flag (10_state.md R21, R23). Collision is in Display.lean. -/

namespace Sys2Proof.Machine

/-- The value VF takes for a flag (R23). -/
def flagByte (f : Bool) : Byte := if f then 1#8 else 0#8

/-- Carry out of bit 7: the unbounded sum exceeds 255 (41_register_alu.md R156, R171). -/
def carry (a b : Byte) : Bool := decide (a.toNat + b.toNat > 255)

/-- NOT borrow of `a - b`: `a >= b` (R157, R159, R172). -/
def noBorrow (a b : Byte) : Bool := decide (a.toNat ≥ b.toNat)

/-- The bit SHR shifts out (R158). -/
def bitOutRight (a : Byte) : Bool := a.getLsbD 0

/-- The bit SHL shifts out (R160). -/
def bitOutLeft (a : Byte) : Bool := a.getLsbD 7

/-- The writes of a flag instruction: V[x] first, VF last (41_register_alu.md, D13). -/
def State.setRegFlag (s : State) (x : Reg) (b : Byte) (f : Bool) : State :=
  (s.setReg x b).setReg vf (flagByte f)

end Sys2Proof.Machine
end

