-- ==== Sys2Proof/Machine/Operands.lean ====
section
/-! DEFINITION. The operand forms: immediates (30_encoding.md R92), I-relative addresses (20_memory.md R64), key and
glyph selectors, BCD digits. -/

namespace Sys2Proof.Machine

/-- `zext_16(nnn)` (R92). -/
def zextAddr (nnn : Addr) : Word := nnn.setWidth 16

/-- `zext_16(b)` of a byte (R92). -/
def zextByte (b : Byte) : Word := b.setWidth 16

/-- `IAddr(k) = (I + k) mod 4096` (R64; D8). -/
def iAddr (i : Word) (k : Nat) : Addr := BitVec.ofNat 12 ((i.toNat + k) % 4096)

/-- MemRead(IAddr(k), 1). -/
def State.readI (s : State) (k : Nat) : Byte := s.readMem (iAddr s.i k)

/-- MemWrite(IAddr(k), 1, b). -/
def State.writeI (s : State) (k : Nat) (b : Byte) : State := s.writeMem (iAddr s.i k) b

/-- `b & 0xF` as an index 0..15 (43_index_memory.md R222, D6; 45_timers_keys.md R273, D7). -/
def lowNibble (b : Byte) : Fin 16 := Fin.ofNat 16 (b &&& 0x0F#8).toNat

/-- `FONT_BASE + 5 * d` for `d` the low nibble (R222). -/
def glyphAddr (b : Byte) : Word := BitVec.ofNat 16 (fontBase + 5 * (lowNibble b).val)

/-- `v / 100` (R223). -/
def hundreds (b : Byte) : Byte := BitVec.ofNat 8 (b.toNat / 100)

/-- `(v / 10) mod 10` (R223). -/
def tens (b : Byte) : Byte := BitVec.ofNat 8 (b.toNat / 10 % 10)

/-- `v mod 10` (R223). -/
def units (b : Byte) : Byte := BitVec.ofNat 8 (b.toNat % 10)

end Sys2Proof.Machine
end

