-- ==== Sys2Proof/Machine/Alu.lean ====
section
/-! DEFINITION. Register-file update: loads, ALU, random (41_register_alu.md). Every operand is read from the state
before the instruction; results wrap modulo 256 (R170). -/

namespace Sys2Proof.Machine

/-- LD Vx, byte (R150). -/
def execLdByte (x : Reg) (kk : Byte) (s : State) : Host.Outcome State Fault Refusal :=
  .next (s.setReg x kk).seq

/-- ADD Vx, byte (R151): wraps, no flag. -/
def execAddByte (x : Reg) (kk : Byte) (s : State) : Host.Outcome State Fault Refusal :=
  .next (s.setReg x (s.reg x + kk)).seq

/-- LD Vx, Vy (R152). -/
def execLdReg (x y : Reg) (s : State) : Host.Outcome State Fault Refusal :=
  .next (s.setReg x (s.reg y)).seq

/-- OR Vx, Vy (R153): no flag. -/
def execOrReg (x y : Reg) (s : State) : Host.Outcome State Fault Refusal :=
  .next (s.setReg x (s.reg x ||| s.reg y)).seq

/-- AND Vx, Vy (R154): no flag. -/
def execAndReg (x y : Reg) (s : State) : Host.Outcome State Fault Refusal :=
  .next (s.setReg x (s.reg x &&& s.reg y)).seq

/-- XOR Vx, Vy (R155): no flag. -/
def execXorReg (x y : Reg) (s : State) : Host.Outcome State Fault Refusal :=
  .next (s.setReg x (s.reg x ^^^ s.reg y)).seq

/-- ADD Vx, Vy (R156): VF <- carry, last. -/
def execAddReg (x y : Reg) (s : State) : Host.Outcome State Fault Refusal :=
  .next (s.setRegFlag x (s.reg x + s.reg y) (carry (s.reg x) (s.reg y))).seq

/-- SUB Vx, Vy (R157): VF <- NOT borrow, last. -/
def execSub (x y : Reg) (s : State) : Host.Outcome State Fault Refusal :=
  .next (s.setRegFlag x (s.reg x - s.reg y) (noBorrow (s.reg x) (s.reg y))).seq

/-- SHR Vx (R158; D12: shifts V[x], `y` ignored): VF <- the bit shifted out, last. -/
def execShr (x _y : Reg) (s : State) : Host.Outcome State Fault Refusal :=
  .next (s.setRegFlag x (s.reg x >>> 1) (bitOutRight (s.reg x))).seq

/-- SUBN Vx, Vy (R159): V[y] - V[x]; VF <- NOT borrow, last. -/
def execSubn (x y : Reg) (s : State) : Host.Outcome State Fault Refusal :=
  .next (s.setRegFlag x (s.reg y - s.reg x) (noBorrow (s.reg y) (s.reg x))).seq

/-- SHL Vx (R160; D12: shifts V[x], `y` ignored): VF <- the bit shifted out, last. -/
def execShl (x _y : Reg) (s : State) : Host.Outcome State Fault Refusal :=
  .next (s.setRegFlag x (s.reg x <<< 1) (bitOutLeft (s.reg x))).seq

/-- RND Vx, byte (R161): a free draw masked by `kk`. -/
def execRnd (x : Reg) (kk : Byte) (s : State) : Host.Outcome State Fault Refusal :=
  .next (s.nextDraw.setReg x (s.rndByte &&& kk)).seq

end Sys2Proof.Machine
end

