-- ==== Sys2Proof/Machine/Control.lean ====
section
/-! DEFINITION. Control transfer, skips and the call stack (42_control_flow.md). Targets are checked by the next fetch,
not here (R202). -/

namespace Sys2Proof.Machine

/-- JP addr (R190). -/
def execJp (nnn : Addr) (s : State) : Host.Outcome State Fault Refusal :=
  .next (s.setPc (zextAddr nnn))

/-- CALL addr (R191): halts on a full stack, else pushes the address of the CALL itself. -/
def execCall (nnn : Addr) (s : State) : Host.Outcome State Fault Refusal :=
  if s.sp.val = 16 then .next (s.raiseHalt .stackOverflow)
  else .next ((s.push s.pc).setPc (zextAddr nnn))

/-- RET (R192): halts on an empty stack, else returns to the popped address plus 2. -/
def execRet (s : State) : Host.Outcome State Fault Refusal :=
  if s.sp.val = 0 then .next (s.raiseHalt .stackUnderflow)
  else .next (s.drop.setPc (s.top + 2#16))

/-- JP V0, addr (R193): a 16-bit sum, not masked to 12 bits (D10). -/
def execJpV0 (nnn : Addr) (s : State) : Host.Outcome State Fault Refusal :=
  .next (s.setPc (zextAddr nnn + zextByte (s.reg 0)))

/-- SE Vx, byte (R194). -/
def execSeByte (x : Reg) (kk : Byte) (s : State) : Host.Outcome State Fault Refusal :=
  .next (s.skipIf (s.reg x == kk))

/-- SNE Vx, byte (R195). -/
def execSneByte (x : Reg) (kk : Byte) (s : State) : Host.Outcome State Fault Refusal :=
  .next (s.skipIf (s.reg x != kk))

/-- SE Vx, Vy (R196). -/
def execSeReg (x y : Reg) (s : State) : Host.Outcome State Fault Refusal :=
  .next (s.skipIf (s.reg x == s.reg y))

/-- SNE Vx, Vy (R197). -/
def execSneReg (x y : Reg) (s : State) : Host.Outcome State Fault Refusal :=
  .next (s.skipIf (s.reg x != s.reg y))

end Sys2Proof.Machine
end

