-- ==== Sys2Proof/Machine/Display.lean ====
section
/-! DEFINITION. Framebuffer instructions (44_display.md). -/

namespace Sys2Proof.Machine

/-- CLS (R250). -/
def execCls (s : State) : Host.Outcome State Fault Refusal :=
  .next (s.setFb Framebuffer.clear).strobe.seq

/-- The sprite bytes `row[0..n-1]`, from IAddr(0) on (R251). -/
def State.spriteRows (s : State) (n : Nat) : List Byte := (List.range n).map s.readI

/-- The pixels of the set bits of sprite row `r`, leftmost first: bit 7 is column offset 0 (D36); coordinates wrap (R251). -/
def rowPixels (cx cy : Byte) (r : Nat) (row : Byte) : List Pixel :=
  ((List.range 8).filter fun c => row.getLsbD (7 - c)).map fun c =>
    (Fin.ofNat 32 (cy.toNat + r), Fin.ofNat 64 (cx.toNat + c))

/-- The pixels of a sprite whose first byte is row `r`, in the order they are drawn (R251). -/
def spritePixels (cx cy : Byte) : Nat → List Byte → List Pixel
  | _, [] => []
  | r, row :: rows => rowPixels cx cy r row ++ spritePixels cx cy (r + 1) rows

/-- Draws pixels one by one: a pixel already on is a collision; each pixel is flipped (R251). -/
def drawPixels : List Pixel → Framebuffer → Bool → Framebuffer × Bool
  | [], fb, hit => (fb, hit)
  | p :: ps, fb, hit => drawPixels ps (Framebuffer.flip fb p) (hit || Framebuffer.get fb p)

/-- The framebuffer and the collision flag after drawing the `n` sprite bytes at I with V[x], V[y] as the position, all
sampled before VF is reset (R132, R251, D18). -/
def State.drawSprite (s : State) (x y : Reg) (n : Nat) : Framebuffer × Bool :=
  drawPixels (spritePixels (s.reg x) (s.reg y) 0 (s.spriteRows n)) s.fb false

/-- DRW Vx, Vy, nibble (R251). -/
def execDrw (x y : Reg) (n : Fin 16) (s : State) : Host.Outcome State Fault Refusal :=
  let drawn := s.drawSprite x y n.val
  .next ((s.setReg vf (flagByte drawn.2)).setFb drawn.1).strobe.seq

end Sys2Proof.Machine
end

