-- ==== Sys2Proof/Machine/IndexMemory.lean ====
section
/-! DEFINITION. Index register and memory instructions (43_index_memory.md). -/

namespace Sys2Proof.Machine

/-- LD I, addr (R220). -/
def execLdI (nnn : Addr) (s : State) : Host.Outcome State Fault Refusal :=
  .next (s.setI (zextAddr nnn)).seq

/-- ADD I, Vx (R221): modulo 2^16, VF not written (D11). -/
def execAddI (x : Reg) (s : State) : Host.Outcome State Fault Refusal :=
  .next (s.setI (s.i + zextByte (s.reg x))).seq

/-- LD F, Vx (R222): the address of the glyph of the low nibble. -/
def execLdF (x : Reg) (s : State) : Host.Outcome State Fault Refusal :=
  .next (s.setI (glyphAddr (s.reg x))).seq

/-- LD B, Vx (R223): hundreds, tens, units at IAddr(0), IAddr(1), IAddr(2). -/
def execLdB (x : Reg) (s : State) : Host.Outcome State Fault Refusal :=
  .next (((s.writeI 0 (hundreds (s.reg x))).writeI 1 (tens (s.reg x))).writeI 2 (units (s.reg x))).seq

/-- Stores V0, V1, ... for the first `n` registers at IAddr(0), IAddr(1), ..., in that order (R224). -/
def State.storeUpTo (s : State) : Nat → State
  | 0 => s
  | n + 1 => (s.storeUpTo n).writeI n (s.reg (Fin.ofNat 16 n))

/-- Loads V0, V1, ... for the first `n` registers from IAddr(0), IAddr(1), ..., in that order (R225). -/
def State.loadUpTo (s : State) : Nat → State
  | 0 => s
  | n + 1 => (s.loadUpTo n).setReg (Fin.ofNat 16 n) (s.readI n)

/-- LD [I], Vx (R224): stores V0..Vx; I is not changed (D16). -/
def execStoreRegs (x : Reg) (s : State) : Host.Outcome State Fault Refusal :=
  .next (s.storeUpTo (x.val + 1)).seq

/-- LD Vx, [I] (R225): loads V0..Vx; I is not changed (D16). -/
def execLoadRegs (x : Reg) (s : State) : Host.Outcome State Fault Refusal :=
  .next (s.loadUpTo (x.val + 1)).seq

end Sys2Proof.Machine
end

