-- ==== Sys2Proof/Machine/System.lean ====
section
/-! DEFINITION. SYS addr and the unknown-opcode policy (40_dispatch.md). -/

namespace Sys2Proof.Machine

/-- The unknown-opcode policy (R135): log the word and its PC, advance by 2. Not a trap (R304). -/
def execUnknown (op : Word) (s : State) : Host.Outcome State Fault Refusal :=
  .next (s.emitUnknown op).seq

/-- SYS addr (R136): exactly R135, with the word 0nnn. -/
def execSys (nnn : Addr) (s : State) : Host.Outcome State Fault Refusal :=
  .next (s.emitUnknown (zextAddr nnn)).seq

end Sys2Proof.Machine
end

