-- ==== Sys2Proof/Machine/TimersKeys.lean ====
section
/-! DEFINITION. Timer and key instructions, and the key wait (45_timers_keys.md). -/

namespace Sys2Proof.Machine

/-- LD Vx, DT (R270). -/
def execLdVxDt (x : Reg) (s : State) : Host.Outcome State Fault Refusal :=
  .next (s.setReg x s.dt).seq

/-- LD DT, Vx (R271). -/
def execLdDtVx (x : Reg) (s : State) : Host.Outcome State Fault Refusal :=
  .next (s.setDt (s.reg x)).seq

/-- LD ST, Vx (R272). -/
def execLdStVx (x : Reg) (s : State) : Host.Outcome State Fault Refusal :=
  .next (s.setSt (s.reg x)).seq

/-- SKP Vx (R273): the key of the low nibble (D7). -/
def execSkp (x : Reg) (s : State) : Host.Outcome State Fault Refusal :=
  .next (s.skipIf (s.keyDown (lowNibble (s.reg x))))

/-- SKNP Vx (R274). -/
def execSknp (x : Reg) (s : State) : Host.Outcome State Fault Refusal :=
  .next (s.skipIf (!s.keyDown (lowNibble (s.reg x))))

/-- LD Vx, K (R275): enters the wait; PC is held. -/
def execLdVxK (x : Reg) (s : State) : Host.Outcome State Fault Refusal :=
  .next (s.latchKeys.setMode (.waitingForKey x))

/-- The lowest index of a set bit (R276, D22). -/
def lowestKey (e : BitVec 16) : Option Nat := (List.range 16).find? fun k => e.getLsbD k

/-- The keys that went from released to pressed since the last observation (R276). -/
def State.risingKeys (s : State) : BitVec 16 := s.key &&& ~~~s.keyPrev

/-- The wait poll, a dispatcher step in WaitingForKey(t) (R276). It fetches nothing. -/
def waitPoll (t : Reg) (s : State) : State :=
  match lowestKey s.risingKeys with
  | some k => ((s.latchKeys.setReg t (BitVec.ofNat 8 k)).seq).setMode .running
  | none => s.latchKeys

end Sys2Proof.Machine
end

