-- ==== Sys2Proof/Machine/Events.lean ====
section
/-! DEFINITION. What the host does to the CORE between steps: ticks, key writes, reads, loading, reset (10_state.md R40,
R42; 60_exceptions.md; 70_reset_and_hazards.md). The outputs of a step are 0 after any other event (R139). -/

namespace Sys2Proof.Machine

/-- A down counter: decrements while above 0 (60_exceptions.md R320). -/
def countDown (b : Byte) : Byte := if b.toNat > 0 then b - 1#8 else b

/-- Timer tick (R320); no effect in Halted (R322). -/
def tick (s : State) : State :=
  match s.mode with
  | .halted _ => s.clearOutputs
  | .running => (s.clearOutputs.setDt (countDown s.dt)).setSt (countDown s.st)
  | .waitingForKey _ => (s.clearOutputs.setDt (countDown s.dt)).setSt (countDown s.st)

/-- Key write (R325): the whole array, in every MODE, and nothing else. -/
def keyWrite (keyIn : BitVec 16) (s : State) : State := { s.clearOutputs with key := keyIn }

/-- A host read changes no state element (R42). -/
def hostRead (s : State) : State := s.clearOutputs

/-- A byte through the load port, accepted only before the first step (R40, R351). -/
def load (addr : Addr) (data : Byte) (s : State) : Host.Outcome State Fault Refusal :=
  if s.started then .refused .loaderAfterStart else .next (s.clearOutputs.writeMem addr data)

/-- Writes the bytes of an image at `a`, `a + 1`, ... (R351). -/
def writeImage (a : Nat) : List Byte → Memory → Memory
  | [], m => m
  | b :: bs, m => writeImage (a + 1) bs (m.write (BitVec.ofNat 12 a) b)

/-- The loader (R351, R352): FileError for an unreadable path, RomTooLarge above 3584 bytes, else the image verbatim at
0x200. -/
def loadRom (image : Option (List Byte)) (s : State) : Host.Outcome State Fault Refusal :=
  if s.started then .refused .loaderAfterStart
  else
    match image with
    | none => .fault .fileError
    | some bytes =>
      if bytes.length > Config.romMax then .fault .romTooLarge
      else .next (s.clearOutputs.setMem (writeImage Config.romBase bytes s.mem))

/-- Reset (R350): every state element at its reset value. The model's own fields, the events still to come and the draws
already made, are not the machine's and stay (log 12). -/
def rst (s : State) : State := { State.reset with events := s.events, draws := s.draws }

end Sys2Proof.Machine
end

