-- ==== Sys2Proof/Machine/Dispatcher.lean ====
section
/-! DEFINITION. The dispatcher step and the taking of one event (40_dispatch.md R130, R131; 10_state.md R42). -/

namespace Sys2Proof.Machine

/-- A Running step: the PC check, the fetch, the decode, the execution (R130, R131). -/
def fetchExecute (s : State) : Host.Outcome State Fault Refusal :=
  match fetchError s.pc with
  | some code => .next (s.raiseHalt code)
  | none =>
    match decode s.fetchWord with
    | .instr i => exec i s
    | .unknown op => execUnknown op s

/-- One dispatcher step, by MODE (R130). The outputs are 0 unless the step sets them (R139). A Halted CORE takes no step. -/
def dispatcherStep (s : State) : Host.Outcome State Fault Refusal :=
  match s.mode with
  | .halted _ => .next s.clearOutputs
  | .waitingForKey t => .next (waitPoll t s.clearOutputs.start)
  | .running => fetchExecute s.clearOutputs.start

/-- One event, atomic (R42, R133). -/
def applyEvent (e : HostEvent) (s : State) : Host.Outcome State Fault Refusal :=
  match e with
  | .step => dispatcherStep s
  | .tick => .next (tick s)
  | .keyWrite k => .next (keyWrite k s)
  | .hostRead => .next (hostRead s)
  | .load addr data => load addr data s
  | .loadRom image => loadRom image s
  | .rst => .next (rst s)

/-- The next event to take: a `step` request when none is listed (log 1). -/
def State.nextEvent (s : State) : HostEvent := s.events.headD .step

/-- Takes the next event off the list. -/
def State.popEvent (s : State) : State := { s with events := s.events.tail }

end Sys2Proof.Machine
end

