-- ==== Sys2Proof/Machine/Step.lean ====
section
/-! DEFINITION. The step of the machine: it takes the next event (10_state.md R42; log 1). -/

namespace Sys2Proof.Machine

/-- One step: the next event of the list, or a `step` request when the list is empty. -/
def step (s : State) : Host.Outcome State Fault Refusal := applyEvent s.nextEvent s.popEvent

/-- The state with an instruction placed where the next step fetches it: the two bytes at PC, in the stored byte order.
What else the fetch needs and nothing more: a PC the fetch check lets through, MODE Running, and a `step` request as the
next event (log 7, log 14). -/
def State.withFetchWord (s : State) (nbits w : Nat) : State :=
  let word : Word := BitVec.ofNat 16 (w % 2 ^ nbits)
  let pc := if fetchError s.pc = none then s.pc else Config.resetPc
  { s with
    pc := pc
    mode := .running
    mem := (s.mem.write (pcAddr pc 0) (highByte word)).write (pcAddr pc 1) (lowByte word)
    events := if s.nextEvent = .step then s.events else .step :: s.events }

end Sys2Proof.Machine
end

