-- ==== Sys2Proof/Machine/Asm.lean ====
section
/-! DEFINITION. The assembler syntax (30_encoding.md R98): the line an instruction is written as, and the instruction a line
stands for. No step uses it. -/

namespace Sys2Proof.Machine

/-- The mnemonics of R94. -/
inductive Mnemonic where
  | cls | ret | sys | jp | call | se | sne | ld | add | or | and | xor | sub | shr | subn | shl | rnd | drw | skp | sknp
  deriving DecidableEq, Repr

/-- The spelling of a mnemonic (R94, R98). -/
def Mnemonic.chars : Mnemonic → List Char
  | .cls => ['C', 'L', 'S']
  | .ret => ['R', 'E', 'T']
  | .sys => ['S', 'Y', 'S']
  | .jp => ['J', 'P']
  | .call => ['C', 'A', 'L', 'L']
  | .se => ['S', 'E']
  | .sne => ['S', 'N', 'E']
  | .ld => ['L', 'D']
  | .add => ['A', 'D', 'D']
  | .or => ['O', 'R']
  | .and => ['A', 'N', 'D']
  | .xor => ['X', 'O', 'R']
  | .sub => ['S', 'U', 'B']
  | .shr => ['S', 'H', 'R']
  | .subn => ['S', 'U', 'B', 'N']
  | .shl => ['S', 'H', 'L']
  | .rnd => ['R', 'N', 'D']
  | .drw => ['D', 'R', 'W']
  | .skp => ['S', 'K', 'P']
  | .sknp => ['S', 'K', 'N', 'P']

/-- All mnemonics. -/
def Mnemonic.all : List Mnemonic :=
  [.cls, .ret, .sys, .jp, .call, .se, .sne, .ld, .add, .or,
    .and, .xor, .sub, .shr, .subn, .shl, .rnd, .drw, .skp, .sknp]

/-- An operand as R98 spells it: a register, a number (with the hex digits it is written with, 0 for decimal), or one of the
names I, DT, ST, K, F, B, [I]. -/
inductive AsmOperand where
  | reg (r : Reg)
  | num (n digits : Nat)
  | i | dt | st | k | f | b | mem
  deriving DecidableEq, Repr

/-- `MNEMONIC operand, operand, ...` (R98). -/
structure AsmLine where
  mnemonic : Mnemonic
  operands : List AsmOperand
  deriving DecidableEq, Repr

/-! ### From an instruction to a line -/

/-- `addr`, a 12-bit number. -/
def asmAddr (nnn : Addr) : AsmOperand := .num nnn.toNat 3

/-- `byte`, an 8-bit number. -/
def asmByte (kk : Byte) : AsmOperand := .num kk.toNat 2

/-- The line of an instruction (R94, R98). SHR and SHL are written with the `y` they encode. -/
def asmLine : Instr → AsmLine
  | .cls => ⟨.cls, []⟩
  | .ret => ⟨.ret, []⟩
  | .sys nnn => ⟨.sys, [asmAddr nnn]⟩
  | .jp nnn => ⟨.jp, [asmAddr nnn]⟩
  | .call nnn => ⟨.call, [asmAddr nnn]⟩
  | .seByte x kk => ⟨.se, [.reg x, asmByte kk]⟩
  | .sneByte x kk => ⟨.sne, [.reg x, asmByte kk]⟩
  | .seReg x y => ⟨.se, [.reg x, .reg y]⟩
  | .ldByte x kk => ⟨.ld, [.reg x, asmByte kk]⟩
  | .addByte x kk => ⟨.add, [.reg x, asmByte kk]⟩
  | .ldReg x y => ⟨.ld, [.reg x, .reg y]⟩
  | .orReg x y => ⟨.or, [.reg x, .reg y]⟩
  | .andReg x y => ⟨.and, [.reg x, .reg y]⟩
  | .xorReg x y => ⟨.xor, [.reg x, .reg y]⟩
  | .addReg x y => ⟨.add, [.reg x, .reg y]⟩
  | .sub x y => ⟨.sub, [.reg x, .reg y]⟩
  | .shr x y => ⟨.shr, [.reg x, .reg y]⟩
  | .subn x y => ⟨.subn, [.reg x, .reg y]⟩
  | .shl x y => ⟨.shl, [.reg x, .reg y]⟩
  | .sneReg x y => ⟨.sne, [.reg x, .reg y]⟩
  | .ldI nnn => ⟨.ld, [.i, asmAddr nnn]⟩
  | .jpV0 nnn => ⟨.jp, [.reg 0, asmAddr nnn]⟩
  | .rnd x kk => ⟨.rnd, [.reg x, asmByte kk]⟩
  | .drw x y n => ⟨.drw, [.reg x, .reg y, .num n.val 0]⟩
  | .skp x => ⟨.skp, [.reg x]⟩
  | .sknp x => ⟨.sknp, [.reg x]⟩
  | .ldVxDt x => ⟨.ld, [.reg x, .dt]⟩
  | .ldVxK x => ⟨.ld, [.reg x, .k]⟩
  | .ldDtVx x => ⟨.ld, [.dt, .reg x]⟩
  | .ldStVx x => ⟨.ld, [.st, .reg x]⟩
  | .addI x => ⟨.add, [.i, .reg x]⟩
  | .ldF x => ⟨.ld, [.f, .reg x]⟩
  | .ldB x => ⟨.ld, [.b, .reg x]⟩
  | .storeRegs x => ⟨.ld, [.mem, .reg x]⟩
  | .loadRegs x => ⟨.ld, [.reg x, .mem]⟩

/-! ### From a line to an instruction -/

/-- A 12-bit number. -/
def addrOf? (n : Nat) : Option Addr := if n < 4096 then some (BitVec.ofNat 12 n) else none

/-- An 8-bit number. -/
def byteOf? (n : Nat) : Option Byte := if n < 256 then some (BitVec.ofNat 8 n) else none

/-- A 4-bit number. -/
def nibbleOf? (n : Nat) : Option (Fin 16) := if h : n < 16 then some ⟨n, h⟩ else none

/-- No operand. -/
def assembleNone (i : Instr) : List AsmOperand → Option Instr
  | [] => some i
  | _ => none

/-- `addr`. -/
def assembleAddr (f : Addr → Instr) : List AsmOperand → Option Instr
  | [.num n _] => (addrOf? n).map f
  | _ => none

/-- `Vx`. -/
def assembleReg (f : Reg → Instr) : List AsmOperand → Option Instr
  | [.reg x] => some (f x)
  | _ => none

/-- `Vx, byte`. -/
def assembleRegByte (f : Reg → Byte → Instr) : List AsmOperand → Option Instr
  | [.reg x, .num n _] => (byteOf? n).map (f x)
  | _ => none

/-- `Vx, Vy`. -/
def assembleRegReg (f : Reg → Reg → Instr) : List AsmOperand → Option Instr
  | [.reg x, .reg y] => some (f x y)
  | _ => none

/-- `Vx, byte` or `Vx, Vy`. -/
def assembleCompare (f : Reg → Byte → Instr) (g : Reg → Reg → Instr) : List AsmOperand → Option Instr
  | [.reg x, .num n _] => (byteOf? n).map (f x)
  | [.reg x, .reg y] => some (g x y)
  | _ => none

/-- `Vx` or `Vx, Vy`: the optional operand is `y`, 0 when it is left out (R98, R100). -/
def assembleShift (f : Reg → Reg → Instr) : List AsmOperand → Option Instr
  | [.reg x] => some (f x 0)
  | [.reg x, .reg y] => some (f x y)
  | _ => none

/-- `Vx, Vy, nibble`. -/
def assembleDrw : List AsmOperand → Option Instr
  | [.reg x, .reg y, .num n _] => (nibbleOf? n).map (.drw x y)
  | _ => none

/-- The forms of JP. -/
def assembleJp : List AsmOperand → Option Instr
  | [.num n _] => (addrOf? n).map .jp
  | [.reg r, .num n _] => if r = 0 then (addrOf? n).map .jpV0 else none
  | _ => none

/-- The forms of ADD. -/
def assembleAdd : List AsmOperand → Option Instr
  | [.reg x, .num n _] => (byteOf? n).map (.addByte x)
  | [.reg x, .reg y] => some (.addReg x y)
  | [.i, .reg x] => some (.addI x)
  | _ => none

/-- The forms `LD Vx, ...`. -/
def assembleLdReg (x : Reg) : AsmOperand → Option Instr
  | .reg y => some (.ldReg x y)
  | .num n _ => (byteOf? n).map (.ldByte x)
  | .dt => some (.ldVxDt x)
  | .k => some (.ldVxK x)
  | .mem => some (.loadRegs x)
  | _ => none

/-- The forms of LD. -/
def assembleLd : List AsmOperand → Option Instr
  | .reg x :: [o] => assembleLdReg x o
  | .i :: os => assembleAddr .ldI os
  | .dt :: os => assembleReg .ldDtVx os
  | .st :: os => assembleReg .ldStVx os
  | .f :: os => assembleReg .ldF os
  | .b :: os => assembleReg .ldB os
  | .mem :: os => assembleReg .storeRegs os
  | _ => none

/-- The instruction a mnemonic and operands stand for, by the forms of R98. -/
def assembleForm : Mnemonic → List AsmOperand → Option Instr
  | .cls => assembleNone .cls
  | .ret => assembleNone .ret
  | .sys => assembleAddr .sys
  | .jp => assembleJp
  | .call => assembleAddr .call
  | .se => assembleCompare .seByte .seReg
  | .sne => assembleCompare .sneByte .sneReg
  | .ld => assembleLd
  | .add => assembleAdd
  | .or => assembleRegReg .orReg
  | .and => assembleRegReg .andReg
  | .xor => assembleRegReg .xorReg
  | .sub => assembleRegReg .sub
  | .shr => assembleShift .shr
  | .subn => assembleRegReg .subn
  | .shl => assembleShift .shl
  | .rnd => assembleRegByte .rnd
  | .drw => assembleDrw
  | .skp => assembleReg .skp
  | .sknp => assembleReg .sknp

/-- The instruction of a line, if its form and the sizes of its numbers are those of R98 and a word encodes it. -/
def assembleLine (line : AsmLine) : Option Instr :=
  match assembleForm line.mnemonic line.operands with
  | some i => if i.wf then some i else none
  | none => none

/-! ### Text -/

/-- The character of a hex digit. -/
def hexChar (d : Fin 16) : Char :=
  (['0', '1', '2', '3', '4', '5', '6', '7'] ++ ['8', '9', 'A', 'B', 'C', 'D', 'E', 'F']).getD d.val '0'

/-- The value of a character as a hex digit. -/
def hexValue (c : Char) : Option Nat := (List.range 16).find? fun d => hexChar (Fin.ofNat 16 d) = c

/-- The value of digits in a base, all below the base. -/
def digitsValue (base : Nat) : List Char → Nat → Option Nat
  | [], acc => some acc
  | c :: cs, acc => (hexValue c).bind fun d => if d < base then digitsValue base cs (acc * base + d) else none

/-- The last `n` hex digits of a number. -/
def hexDigits : Nat → Nat → List Char
  | 0, _ => []
  | n + 1, v => hexDigits n (v / 16) ++ [hexChar (Fin.ofNat 16 v)]

/-- A count 0..15 in decimal. -/
def decimalNibble (n : Nat) : List Char :=
  if n < 10 then [hexChar (Fin.ofNat 16 n)] else ['1', hexChar (Fin.ofNat 16 (n - 10))]

/-- The spelling of an operand (R98). -/
def AsmOperand.chars : AsmOperand → List Char
  | .reg r => ['V', hexChar r]
  | .num n 0 => decimalNibble n
  | .num n (d + 1) => '0' :: 'x' :: hexDigits (d + 1) n
  | .i => ['I']
  | .dt => ['D', 'T']
  | .st => ['S', 'T']
  | .k => ['K']
  | .f => ['F']
  | .b => ['B']
  | .mem => ['[', 'I', ']']

/-- Operands with a comma and a space between two. -/
def operandsChars : List AsmOperand → List Char
  | [] => []
  | [o] => o.chars
  | o :: os => o.chars ++ [',', ' '] ++ operandsChars os

/-- The text of a line: the mnemonic, then a space and the operands if there are some. -/
def AsmLine.chars (line : AsmLine) : List Char :=
  line.mnemonic.chars ++ (if line.operands = [] then [] else ' ' :: operandsChars line.operands)

/-- The text an instruction is written as. -/
def asmText (i : Instr) : List Char := (asmLine i).chars

/-- Digits in a base, one at least. -/
def digitsOf? (base : Nat) (cs : List Char) (written : Nat) : Option AsmOperand :=
  if cs = [] then none else (digitsValue base cs 0).map fun n => .num n written

/-- A number: hex with the spelling `0x`, or decimal (R98). -/
def numberOf? (cs : List Char) : Option AsmOperand :=
  if cs.take 2 = ['0', 'x'] then digitsOf? 16 (cs.drop 2) (cs.length - 2) else digitsOf? 10 cs 0

/-- The operands that are names. -/
def namedOperands : List AsmOperand := [.i, .dt, .st, .k, .f, .b, .mem]

/-- A register, or a number. -/
def registerOrNumber? : List Char → Option AsmOperand
  | [a, c] =>
    if a = 'V' then (hexValue c).map fun d => .reg (Fin.ofNat 16 d) else numberOf? [a, c]
  | cs => numberOf? cs

/-- An operand from its spelling. -/
def operandOf? (cs : List Char) : Option AsmOperand :=
  match namedOperands.find? fun o => o.chars = cs with
  | some o => some o
  | none => registerOrNumber? cs

/-- Text cut at commas, spaces left out. -/
def splitOperands : List Char → List Char → List (List Char)
  | acc, [] => [acc.reverse]
  | acc, c :: cs =>
    if c = ',' then acc.reverse :: splitOperands [] cs
    else if c = ' ' then splitOperands acc cs
    else splitOperands (c :: acc) cs

/-- The operands of the text after a mnemonic: none if it is blank. -/
def operandsOf? (cs : List Char) : Option (List AsmOperand) :=
  if splitOperands [] cs = [[]] then some [] else (splitOperands [] cs).mapM operandOf?

/-- The text up to the first space, and the text after it. -/
def splitWord : List Char → List Char × List Char
  | [] => ([], [])
  | c :: cs => if c = ' ' then ([], cs) else (c :: (splitWord cs).1, (splitWord cs).2)

/-- A line from its text (R98). -/
def parseLine (cs : List Char) : Option AsmLine :=
  (Mnemonic.all.find? fun m => m.chars = (splitWord cs).1).bind fun m =>
    (operandsOf? (splitWord cs).2).map fun os => ⟨m, os⟩

/-- The word a line of text stands for. -/
def assembleText (cs : List Char) : Option Word := ((parseLine cs).bind assembleLine).map encode

end Sys2Proof.Machine
end

