-- ==== Sys2Proof/Machine/Ports.lean ====
section
/-! DEFINITION. The outputs of the CORE that are views of its state (10_state.md R34, R41). -/

namespace Sys2Proof.Machine

/-- The number of an error (60_exceptions.md R300; D24). -/
def HaltCode.number : HaltCode → Nat
  | .stackOverflow => 1
  | .stackUnderflow => 2
  | .pcMisaligned => 3
  | .pcOutOfRange => 4

/-- The number of a load-time error (R300; D24). -/
def Fault.number : Fault → Nat
  | .fileError => 6
  | .romTooLarge => 7

/-- The number of the non-fatal UnknownOpcode event (R300; D24). -/
def unknownOpcodeNumber : Nat := 5

/-- `tone` (R323). -/
def State.tone (s : State) : Bool := s.st != 0#8

/-- `status_mode`: 0 Running, 1 WaitingForKey, 2 Halted (R34). -/
def State.statusMode (s : State) : BitVec 2 :=
  match s.mode with
  | .running => 0#2
  | .waitingForKey _ => 1#2
  | .halted _ => 2#2

/-- `status_wait_reg`: the register of WaitingForKey, 0 otherwise (R34). -/
def State.statusWaitReg (s : State) : BitVec 4 :=
  match s.mode with
  | .running => 0#4
  | .waitingForKey t => BitVec.ofNat 4 t.val
  | .halted _ => 0#4

/-- `status_err`: the code of Halted, 0 otherwise (R34). -/
def State.statusErr (s : State) : BitVec 3 :=
  match s.mode with
  | .running => 0#3
  | .waitingForKey _ => 0#3
  | .halted code => BitVec.ofNat 3 code.number

/-- `unk_evt` (R41). -/
def State.unkEvt (s : State) : Bool := s.unk.isSome

/-- `unk_op`, 0 when there is no event (R41, R139). -/
def State.unkOp (s : State) : Word := (s.unk.map UnkEvent.op).getD 0#16

/-- `unk_pc`, 0 when there is no event (R41, R139). -/
def State.unkPc (s : State) : Word := (s.unk.map UnkEvent.pc).getD 0#16

/-- The first `n` rows of the port `fb`. -/
def fbRows (fb : Framebuffer) : Nat → BitVec 2048
  | 0 => 0#2048
  | n + 1 => fbRows fb n ||| ((fb.getD n 0#64).setWidth 2048 <<< (64 * n))

/-- `fb`: bit `64*r + c` is FB[r][c] (R41). -/
def State.fbPort (s : State) : BitVec 2048 := fbRows s.fb 32

end Sys2Proof.Machine
end

