-- ==== Sys2Proof/Safety.lean ====
section
/-! DEFINITION. The terms claims are stated in: the parts of the state and what is unchanged between two states, what a
sprite covers, the invariant, runs of host events, a machine at rest, fair schedules. -/

namespace Sys2Proof.Machine

/-! ### Parts of the state, for frames -/

/-- Every separately observable part of the state: each register, stack slot, pixel and memory byte on its own. -/
inductive Part where
  | v (r : Reg)
  | i
  | pc
  | sp
  | stack (j : Fin 16)
  | dt
  | st
  | pixel (p : Pixel)
  | key
  | keyPrev
  | mode
  | mem (a : Addr)
  | fbStrobe
  | unk
  | started
  | draws
  | events
  deriving DecidableEq, Repr

/-- The part holds the same in both states. -/
def Part.same (s t : State) : Part → Prop
  | .v r => t.reg r = s.reg r
  | .i => t.i = s.i
  | .pc => t.pc = s.pc
  | .sp => t.sp = s.sp
  | .stack j => t.stack[j.val] = s.stack[j.val]
  | .dt => t.dt = s.dt
  | .st => t.st = s.st
  | .pixel p => t.pixel p = s.pixel p
  | .key => t.key = s.key
  | .keyPrev => t.keyPrev = s.keyPrev
  | .mode => t.mode = s.mode
  | .mem a => t.readMem a = s.readMem a
  | .fbStrobe => t.fbStrobe = s.fbStrobe
  | .unk => t.unk = s.unk
  | .started => t.started = s.started
  | .draws => t.draws = s.draws
  | .events => t.events = s.events

/-- The frame: every part that is not among the written ones is unchanged. -/
def Unchanged (s t : State) (written : Part → Prop) : Prop := ∀ p, ¬ written p → p.same s t

/-! ### Encodings as the spec writes them -/

/-- `base | x<<8 | low` (the Encoding lines of 41_register_alu.md to 45_timers_keys.md). -/
def wordX (base : Word) (x : Reg) (low : Word) : Word := base ||| (BitVec.ofNat 16 x.val <<< 8) ||| low

/-- `base | x<<8 | y<<4`. -/
def wordXY (base : Word) (x y : Reg) : Word := wordX base x (BitVec.ofNat 16 y.val <<< 4)

/-! ### Addresses a program may be fetched from -/

/-- A PC the fetch check lets through: even and at most 0xFFE (20_memory.md R65). -/
abbrev Fetchable (a : Word) : Prop := a.toNat ≤ 0xFFE ∧ a.toNat % 2 = 0

/-- The word the next fetch reads at `t`'s PC, byte by byte: where `stored` gives a byte of it, that byte, and elsewhere the
byte `s` had there (20_memory.md R71; the spec's decision D35). -/
def FetchesStored (s t : State) (stored : Addr → Byte → Prop) : Prop :=
  ∀ hi lo : Addr, hi.toNat = t.pc.toNat → lo.toNat = t.pc.toNat + 1 →
    (∀ b, stored hi b → t.fetchWord.toNat / 256 = b.toNat) ∧
    ((∀ b, ¬ stored hi b) → t.fetchWord.toNat / 256 = (s.readMem hi).toNat) ∧
    (∀ b, stored lo b → t.fetchWord.toNat % 256 = b.toNat) ∧
    ((∀ b, ¬ stored lo b) → t.fetchWord.toNat % 256 = (s.readMem lo).toNat)

/-! ### Sprites -/

/-- A set bit of the sprite that DRW Vx, Vy, n draws from state `s` falls on the pixel (44_display.md R251). -/
def Covers (s : State) (x y : Reg) (n : Nat) (p : Pixel) : Prop :=
  ∃ r c : Nat, r < n ∧ c < 8 ∧ (s.readI r).getLsbD (7 - c) = true ∧
    p.1.val = ((s.reg y).toNat + r) % 32 ∧ p.2.val = ((s.reg x).toNat + c) % 64

/-! ### The invariant -/

/-- Why the machine is in `Halted(code)`: the state still shows the cause, since PC addresses the faulting instruction or
holds the bad fetch address (60_exceptions.md R301, R302). -/
def HaltCause (s : State) : HaltCode → Prop
  | .stackOverflow => s.sp.val = 16 ∧ Fetchable s.pc ∧ ∃ nnn, decode s.fetchWord = .instr (.call nnn)
  | .stackUnderflow => s.sp.val = 0 ∧ Fetchable s.pc ∧ decode s.fetchWord = .instr .ret
  | .pcMisaligned => s.pc.toNat ≤ 0xFFE ∧ s.pc.toNat % 2 = 1
  | .pcOutOfRange => s.pc.toNat > 0xFFE

/-- What holds in every state the machine reaches, whatever the host's events. -/
structure StateInv (s : State) : Prop where
  /-- Memory is in its canonical form. -/
  memory : s.mem.wf = true
  /-- Every stack slot holds a fetchable address (42_control_flow.md R192). -/
  stack : ∀ j : Fin 16, Fetchable s.stack[j.val]
  /-- No PC is above the largest Bnnn target (40_dispatch.md R137). -/
  pcBound : s.pc.toNat ≤ 0x10FE
  /-- At most one output is asserted (40_dispatch.md R139). -/
  oneOutput : s.fbStrobe = true → s.unk = none
  /-- A waiting machine still addresses its Fx0A (45_timers_keys.md R275), and its loader is closed. -/
  waiting : ∀ t, s.mode = .waitingForKey t →
    s.started = true ∧ Fetchable s.pc ∧ decode s.fetchWord = .instr (.ldVxK t)
  /-- A halted machine shows the cause, asserts no output (60_exceptions.md R302), and its loader is closed. -/
  halted : ∀ code, s.mode = .halted code →
    s.started = true ∧ s.fbStrobe = false ∧ s.unk = none ∧ HaltCause s code

/-! ### Runs of host events -/

/-- Takes a list of events one after the other, stopping at the first that does not answer a next state. -/
def runEvents : List HostEvent → State → Host.Outcome State Fault Refusal
  | [], s => .next s
  | e :: es, s =>
    match applyEvent e s with
    | .next t => runEvents es t
    | .fault r => .fault r
    | .refused r => .refused r

/-- `n` steps of the machine. -/
abbrev runSteps (n : Nat) (s : State) : Host.Outcome State Fault Refusal := Sys2Proof.core.run n s

/-- The first `n` events of an endless schedule. -/
def firstEvents (sched : Nat → HostEvent) (n : Nat) : List HostEvent := (List.range n).map sched

/-- Fairness (70_reset_and_hazards.md R371): step and tick events each occur infinitely often (log 2). -/
def Fair (sched : Nat → HostEvent) : Prop :=
  (∀ n, ∃ m, n ≤ m ∧ sched m = .step) ∧ (∀ n, ∃ m, n ≤ m ∧ sched m = .tick)

/-- The events of a running CORE (10_state.md R42): a step, a tick, a key write, a host read. -/
def RunningEvent : HostEvent → Prop
  | .step => True
  | .tick => True
  | .keyWrite _ => True
  | .hostRead => True
  | .load _ _ => False
  | .loadRom _ => False
  | .rst => False

/-- At rest (70_reset_and_hazards.md R372 (b)): Running, and the word at PC is 1nnn with nnn = PC. -/
def AtRest (s : State) : Prop :=
  s.mode = .running ∧ Fetchable s.pc ∧ decode s.fetchWord = .instr (.jp (s.pc.setWidth 12))

end Sys2Proof.Machine
end

