-- ==== Sys2Proof/Certificates/Slice0/Obligations.lean ====
section
/-! DEFINITION. The statements for the provers, from the spec's numbered rules. `Unchanged s t written` is the frame: every
register, stack slot, pixel, memory byte and other part of the state outside `written` is the same in `s` and `t`. -/

open Sys2Proof Sys2Proof.Machine Host

/-! ### Encoding (30_encoding.md) -/

/-- The example words of 30_encoding.md section 4, and words of the other families from the vectors of
95_test_vectors.md, decode to the instructions they stand for. -/
def Obligations.ExampleWordsDecode : Prop :=
  decode 0x6542 = .instr (.ldByte 5 0x42) ∧ decode 0x8014 = .instr (.addReg 0 1) ∧
  decode 0x1204 = .instr (.jp 0x204) ∧ decode 0x2210 = .instr (.call 0x210) ∧
  decode 0xD125 = .instr (.drw 1 2 5) ∧ decode 0xFA33 = .instr (.ldB 0xA) ∧
  decode 0xF265 = .instr (.loadRegs 2) ∧ decode 0x830E = .instr (.shl 3 0) ∧
  decode 0x00E0 = .instr .cls ∧ decode 0x00EE = .instr .ret ∧ decode 0x01E0 = .instr (.sys 0x1E0) ∧
  decode 0x5121 = .unknown 0x5121 ∧ decode 0xE59E = .instr (.skp 5) ∧ decode 0xE19F = .unknown 0xE19F

/-- Decoding the word of any well-formed instruction gives it back, with every field. -/
def Obligations.DecodeOfEncodeIsIdentity : Prop :=
  ∀ i : Instr, i.wf = true → decode (encode i) = .instr i ∧
    ∀ rest, decodeBytes (encodeBytes i ++ rest) = .instr i rest

/-- A word that decodes to an instruction is the encoding of that instruction, which is well-formed: no bit of the word is
ignored, and no second word means the same (30_encoding.md section 3). -/
def Obligations.DecodedWordIsItsEncoding : Prop :=
  ∀ (op : Word) (i : Instr), decode op = .instr i → i.wf = true ∧ encode i = op

/-- The unknown words, family by family, as 30_encoding.md section 3 lists them, and the policy they are executed by. That
5xyN and 9xyN are unknown is the spec's decision D19, and that the event holds the word with its PC its decision D21 (log
11). -/
def Obligations.UnknownWordsAreExactlyThese : Prop :=
  (∀ op : Word, (∃ op', decode op = .unknown op') ↔
    (op.toNat / 4096 = 0x5 ∧ op.toNat % 16 ≠ 0) ∨
    (op.toNat / 4096 = 0x8 ∧ (op.toNat % 16 = 0x8 ∨ op.toNat % 16 = 0x9 ∨ op.toNat % 16 = 0xA ∨ op.toNat % 16 = 0xB ∨
      op.toNat % 16 = 0xC ∨ op.toNat % 16 = 0xD ∨ op.toNat % 16 = 0xF)) ∨
    (op.toNat / 4096 = 0x9 ∧ op.toNat % 16 ≠ 0) ∨
    (op.toNat / 4096 = 0xE ∧ op.toNat % 256 ≠ 0x9E ∧ op.toNat % 256 ≠ 0xA1) ∨
    (op.toNat / 4096 = 0xF ∧ op.toNat % 256 ≠ 0x07 ∧ op.toNat % 256 ≠ 0x0A ∧ op.toNat % 256 ≠ 0x15 ∧
      op.toNat % 256 ≠ 0x18 ∧ op.toNat % 256 ≠ 0x1E ∧ op.toNat % 256 ≠ 0x29 ∧ op.toNat % 256 ≠ 0x33 ∧
      op.toNat % 256 ≠ 0x55 ∧ op.toNat % 256 ≠ 0x65)) ∧
  (∀ op op' : Word, decode op = .unknown op' → op' = op) ∧
  (∀ s : State, s.mode = .running → Fetchable s.pc → decode s.fetchWord = .unknown s.fetchWord →
    ∃ t, dispatcherStep s = .next t ∧ t.mode = .running ∧ t.unk = some ⟨s.fetchWord, s.pc⟩ ∧ t.pc = s.pc + 2#16)

/-- The decoder agrees with the opcode table read as masks: an instruction's row is the first row the word matches, and an
unknown word matches none. -/
def Obligations.DecodePicksTheFirstMatchingRow : Prop :=
  ∀ op : Word,
    (∀ i, decode op = .instr i → opcodeTable.find? (fun r => r.fits op) = some i.row) ∧
    (∀ op', decode op = .unknown op' → opcodeTable.find? (fun r => r.fits op) = none)

/-- The text an instruction is written as (30_encoding.md section 4, the spec's decision D32; the layout is the model's, log
19) is read back as the same line, which stands for the same instruction and assembles to its word. -/
def Obligations.AssemblerReadsWhatItWrites : Prop :=
  ∀ i : Instr, i.wf = true →
    parseLine (asmText i) = some (asmLine i) ∧ assembleLine (asmLine i) = some i ∧ assembleText (asmText i) = some (encode i)

/-! ### Fetch, step, unknown opcodes (20_memory.md, 40_dispatch.md) -/

/-- R62: the opcode is the byte at PC times 256 plus the byte at PC + 1. -/
def Obligations.FetchIsBigEndian : Prop :=
  ∀ (s : State) (a b : Addr), s.pc.toNat ≤ 0xFFE → a.toNat = s.pc.toNat → b.toNat = s.pc.toNat + 1 →
    s.fetchWord.toNat = (s.readMem a).toNat * 256 + (s.readMem b).toNat

/-- When the bytes at PC decode to a well-formed instruction, a step runs `exec` of it. Around `exec` the step takes the
`step` event off the list, puts the outputs of the last event back to 0 and marks the loader's window closed; PC still
holds the instruction's address. -/
def Obligations.StepRunsTheDecodedInstruction : Prop :=
  ∀ (s : State) (i : Instr), s.nextEvent = .step → s.mode = .running → Fetchable s.pc → decode s.fetchWord = .instr i →
    step s = exec i { s with events := s.events.tail, fbStrobe := false, unk := none, started := true }

/-- SYS addr logs its word and PC and advances by 2; nothing else changes (40_dispatch.md section 2; the name and the row
are the spec's decision D20). -/
def Obligations.SysLogsAndSkips : Prop :=
  ∀ (nnn : Addr) (s : State), ∃ t, exec (.sys nnn) s = .next t ∧
    t.unk = some ⟨BitVec.ofNat 16 nnn.toNat, s.pc⟩ ∧ t.pc = s.pc + 2#16 ∧
    Unchanged s t (fun p => p = .unk ∨ p = .pc)

/-- A step on an unknown word logs it and advances by 2; of the machine's state only PC and the outputs change (the
spec's decision D21; `started` and `events` are the bookkeeping of logs 4 and 1). -/
def Obligations.UnknownOpcodeIsLoggedAndSkipped : Prop :=
  ∀ (s : State) (op : Word), s.nextEvent = .step → s.mode = .running → Fetchable s.pc → decode s.fetchWord = .unknown op →
    ∃ t, step s = .next t ∧ t.unkEvt = true ∧ t.unkOp = s.fetchWord ∧ t.unkPc = s.pc ∧ t.fbStrobe = false ∧
      t.pc = s.pc + 2#16 ∧
      Unchanged s t (fun p => p = .pc ∨ p = .unk ∨ p = .fbStrobe ∨ p = .started ∨ p = .events)

/-- A step answers a next state whenever the next event is not the loader's: no instruction, mode or PC stops the model. -/
def Obligations.StepAlwaysAnswersOutsideTheLoader : Prop :=
  ∀ s : State, (∀ a b, s.nextEvent ≠ .load a b) → (∀ image, s.nextEvent ≠ .loadRom image) → ∃ t, step s = .next t

/-! ### Errors and halt (60_exceptions.md) -/

/-- A Running step halts on a bad PC, range before alignment, and then only MODE and the outputs change (the spec's
decision D9). -/
def Obligations.BadPcHaltsAtFetch : Prop :=
  ∀ s : State, s.nextEvent = .step → s.mode = .running → ¬ Fetchable s.pc →
    ∃ t, step s = .next t ∧
      (s.pc.toNat > 0xFFE → t.mode = .halted .pcOutOfRange) ∧
      (s.pc.toNat ≤ 0xFFE → t.mode = .halted .pcMisaligned) ∧
      t.fbStrobe = false ∧ t.unk = none ∧
      Unchanged s t (fun p => p = .mode ∨ p = .fbStrobe ∨ p = .unk ∨ p = .started ∨ p = .events)

/-- Halt is precise: a dispatcher step that halts a Running CORE changes MODE and the outputs only, whichever instruction
or fetch raised it (the spec's decision D23). -/
def Obligations.HaltIsPrecise : Prop :=
  ∀ (s t : State) (code : HaltCode), s.mode = .running → dispatcherStep s = .next t → t.mode = .halted code →
    t = { s with mode := .halted code, fbStrobe := false, unk := none, started := true }

/-- A Halted CORE takes no dispatcher step and leaves Halted only by reset (60_exceptions.md section 2). That a `step` request
then answers a next state is the model's reading (log 10), and that the outputs go back to 0 its log 8. -/
def Obligations.OnlyResetLeavesHalted : Prop :=
  ∀ (s : State) (code : HaltCode), s.mode = .halted code →
    dispatcherStep s = .next { s with fbStrobe := false, unk := none } ∧
    (∀ e t, applyEvent e s = .next t → e ≠ .rst → t.mode = .halted code) ∧
    (∃ t, applyEvent .rst s = .next t ∧ t.mode = .running)

/-! ### Register file (41_register_alu.md) -/

/-- R150: LD Vx, byte, its encoding and its effect. -/
def Obligations.LoadByteSetsRegister : Prop :=
  ∀ (x : Reg) (kk : Byte), decode (wordX 0x6000#16 x (kk.setWidth 16)) = .instr (.ldByte x kk) ∧
    ∀ s : State, ∃ t, exec (.ldByte x kk) s = .next t ∧ t.reg x = kk ∧ t.pc = s.pc + 2#16 ∧
      Unchanged s t (fun p => p = .v x ∨ p = .pc)

/-- R151: ADD Vx, byte, its encoding and its effect: the sum modulo 256, VF written only as an ordinary destination. -/
def Obligations.AddByteWrapsWithoutFlag : Prop :=
  ∀ (x : Reg) (kk : Byte), decode (wordX 0x7000#16 x (kk.setWidth 16)) = .instr (.addByte x kk) ∧
    ∀ s : State, ∃ t, exec (.addByte x kk) s = .next t ∧
      (t.reg x).toNat = ((s.reg x).toNat + kk.toNat) % 256 ∧ t.pc = s.pc + 2#16 ∧
      Unchanged s t (fun p => p = .v x ∨ p = .pc)

/-- R152: LD Vx, Vy, its encoding and its effect; with x = y only PC changes. -/
def Obligations.LoadRegisterCopies : Prop :=
  ∀ x y : Reg, decode (wordXY 0x8000#16 x y) = .instr (.ldReg x y) ∧
    ∀ s : State, ∃ t, exec (.ldReg x y) s = .next t ∧ t.reg x = s.reg y ∧ t.pc = s.pc + 2#16 ∧
      Unchanged s t (fun p => (p = .v x ∧ x ≠ y) ∨ p = .pc)

/-- OR, AND and XOR combine the operands bit by bit and write no flag. -/
def Obligations.LogicOperatesBitByBit : Prop :=
  ∀ (x y : Reg) (s : State),
    (∃ t, exec (.orReg x y) s = .next t ∧ t.pc = s.pc + 2#16 ∧
      (∀ k < 8, (t.reg x).getLsbD k = ((s.reg x).getLsbD k || (s.reg y).getLsbD k)) ∧
      Unchanged s t (fun p => p = .v x ∨ p = .pc)) ∧
    (∃ t, exec (.andReg x y) s = .next t ∧ t.pc = s.pc + 2#16 ∧
      (∀ k < 8, (t.reg x).getLsbD k = ((s.reg x).getLsbD k && (s.reg y).getLsbD k)) ∧
      Unchanged s t (fun p => p = .v x ∨ p = .pc)) ∧
    (∃ t, exec (.xorReg x y) s = .next t ∧ t.pc = s.pc + 2#16 ∧
      (∀ k < 8, (t.reg x).getLsbD k = ((s.reg x).getLsbD k != (s.reg y).getLsbD k)) ∧
      Unchanged s t (fun p => p = .v x ∨ p = .pc))

/-- 8xy4 sets VF to 1 exactly when the unbounded sum exceeds 255; 7xkk computes the same wrapped sum and sets no
flag (41_register_alu.md section 4). With x = F the flag is what VF holds: the spec's decision D13 (log 11). -/
def Obligations.CarryIsTheUnboundedSum : Prop :=
  ∀ (x y : Reg) (s : State),
    (∃ t, exec (.addReg x y) s = .next t ∧ t.pc = s.pc + 2#16 ∧
      (t.reg vf = 1#8 ↔ (s.reg x).toNat + (s.reg y).toNat > 255) ∧ (t.reg vf = 0#8 ∨ t.reg vf = 1#8) ∧
      (x ≠ vf → (t.reg x).toNat = ((s.reg x).toNat + (s.reg y).toNat) % 256) ∧
      Unchanged s t (fun p => p = .v x ∨ p = .v vf ∨ p = .pc)) ∧
    (∀ kk : Byte, ∃ t, exec (.addByte x kk) s = .next t ∧
      (t.reg x).toNat = ((s.reg x).toNat + kk.toNat) % 256 ∧ (x ≠ vf → t.reg vf = s.reg vf))

/-- SUB and SUBN: the difference modulo 256, and VF = 1 exactly when no borrow occurs, equal operands included; VF holds
the flag also when x = F (the spec's decisions D13, D14). -/
def Obligations.SubtractSetsNotBorrow : Prop :=
  ∀ (x y : Reg) (s : State),
    (∃ t, exec (.sub x y) s = .next t ∧ t.pc = s.pc + 2#16 ∧
      t.reg vf = (if (s.reg y).toNat ≤ (s.reg x).toNat then 1#8 else 0#8) ∧
      (x ≠ vf → ((t.reg x).toNat + (s.reg y).toNat) % 256 = (s.reg x).toNat) ∧
      Unchanged s t (fun p => p = .v x ∨ p = .v vf ∨ p = .pc)) ∧
    (∃ t, exec (.subn x y) s = .next t ∧ t.pc = s.pc + 2#16 ∧
      t.reg vf = (if (s.reg x).toNat ≤ (s.reg y).toNat then 1#8 else 0#8) ∧
      (x ≠ vf → ((t.reg x).toNat + (s.reg x).toNat) % 256 = (s.reg y).toNat) ∧
      Unchanged s t (fun p => p = .v x ∨ p = .v vf ∨ p = .pc))

/-- SHR and SHL shift V[x] by one place, whatever y is, and VF is the bit shifted out, also when x = F (the spec's
decisions D12, D13). -/
def Obligations.ShiftsMoveOneBitIntoVf : Prop :=
  ∀ (x y : Reg) (s : State),
    (∃ t, exec (.shr x y) s = .next t ∧ t.pc = s.pc + 2#16 ∧ (t.reg vf).toNat = (s.reg x).toNat % 2 ∧
      (x ≠ vf → (t.reg x).toNat * 2 + (t.reg vf).toNat = (s.reg x).toNat) ∧
      Unchanged s t (fun p => p = .v x ∨ p = .v vf ∨ p = .pc)) ∧
    (∃ t, exec (.shl x y) s = .next t ∧ t.pc = s.pc + 2#16 ∧ (t.reg vf).toNat = (s.reg x).toNat / 128 ∧
      (x ≠ vf → (t.reg vf).toNat * 256 + (t.reg x).toNat = (s.reg x).toNat * 2) ∧
      Unchanged s t (fun p => p = .v x ∨ p = .v vf ∨ p = .pc))

/-- RND masks a free draw, whatever byte it is, and moves on to the next draw (the spec's decision D25; the draw counter is
the model's own, log 3). -/
def Obligations.RandomMasksAFreeDraw : Prop :=
  ∀ (x : Reg) (kk : Byte) (s : State), ∃ t, exec (.rnd x kk) s = .next t ∧ t.pc = s.pc + 2#16 ∧
    t.reg x = Config.rnd s.draws &&& kk ∧ (kk = 0#8 → t.reg x = 0#8) ∧ t.draws = s.draws + 1 ∧
    Unchanged s t (fun p => p = .v x ∨ p = .pc ∨ p = .draws)

/-! ### Control transfer (42_control_flow.md) -/

/-- JP and JP V0 set PC directly, the latter to a sum that is not masked, at most 0x10FE (the spec's decisions D9, D10). -/
def Obligations.JumpsSetPcDirectly : Prop :=
  ∀ (nnn : Addr) (s : State),
    (∃ t, exec (.jp nnn) s = .next t ∧ t.pc.toNat = nnn.toNat ∧ Unchanged s t (fun p => p = .pc)) ∧
    (∃ t, exec (.jpV0 nnn) s = .next t ∧ t.pc.toNat = nnn.toNat + (s.reg 0).toNat ∧ t.pc.toNat ≤ 0x10FE ∧
      Unchanged s t (fun p => p = .pc))

/-- R191: CALL, its encoding and its effect: it pushes its own address and jumps; on a full stack it halts and only MODE
changes; an odd target is refused by the next fetch. -/
def Obligations.CallPushesItsOwnAddress : Prop :=
  ∀ nnn : Addr, decode (0x2000#16 ||| nnn.setWidth 16) = .instr (.call nnn) ∧
    ∀ s : State,
      (s.sp.val = 16 → ∃ t, exec (.call nnn) s = .next t ∧ t.mode = .halted .stackOverflow ∧
        Unchanged s t (fun p => p = .mode)) ∧
      (∀ h : s.sp.val < 16, ∃ t, exec (.call nnn) s = .next t ∧ t.stack[s.sp.val] = s.pc ∧
        t.sp.val = s.sp.val + 1 ∧ t.pc.toNat = nnn.toNat ∧
        (nnn.toNat % 2 = 1 → ∃ code, fetchError t.pc = some code) ∧
        Unchanged s t (fun p => p = .stack ⟨s.sp.val, h⟩ ∨ p = .sp ∨ p = .pc))

/-- R192: RET, its encoding and its effect: it returns to the popped address plus 2 and keeps the slot; on an empty stack it
halts and only MODE changes; a return to a fetched PC is even and at most 0x1000, and the next fetch of 0x1000 halts. -/
def Obligations.RetReturnsPastTheCall : Prop :=
  decode 0x00EE#16 = .instr .ret ∧
    ∀ s : State,
      (s.sp.val = 0 → ∃ t, exec .ret s = .next t ∧ t.mode = .halted .stackUnderflow ∧
        Unchanged s t (fun p => p = .mode)) ∧
      (∀ h : 0 < s.sp.val, ∃ t, exec .ret s = .next t ∧ t.sp.val + 1 = s.sp.val ∧
        (∀ j : Fin 16, j.val + 1 = s.sp.val → t.pc.toNat = (s.stack[j.val].toNat + 2) % 65536 ∧
          (Fetchable s.stack[j.val] → t.pc.toNat % 2 = 0 ∧ t.pc.toNat ≤ 0x1000) ∧
          (s.stack[j.val].toNat = 0xFFE → fetchError t.pc = some .pcOutOfRange)) ∧
        Unchanged s t (fun p => p = .sp ∨ p = .pc))

/-- CALL and then RET come back to the call's address plus 2 with the stack depth it had. -/
def Obligations.CallThenRetComesBack : Prop :=
  ∀ (nnn : Addr) (s : State), s.sp.val < 16 →
    ∃ t u, exec (.call nnn) s = .next t ∧ exec .ret t = .next u ∧ u.pc = s.pc + 2#16 ∧ u.sp = s.sp ∧
      (∀ j : Fin 16, j.val < s.sp.val → u.stack[j.val] = s.stack[j.val])

/-- R194, R195: SE Vx, byte and SNE Vx, byte, their encodings and their effects. -/
def Obligations.ByteSkipsCompare : Prop :=
  ∀ (x : Reg) (kk : Byte),
    decode (wordX 0x3000#16 x (kk.setWidth 16)) = .instr (.seByte x kk) ∧
    decode (wordX 0x4000#16 x (kk.setWidth 16)) = .instr (.sneByte x kk) ∧
    ∀ s : State,
      (∃ t, exec (.seByte x kk) s = .next t ∧ (s.reg x = kk → t.pc = s.pc + 4#16) ∧
        (s.reg x ≠ kk → t.pc = s.pc + 2#16) ∧ Unchanged s t (fun p => p = .pc)) ∧
      (∃ t, exec (.sneByte x kk) s = .next t ∧ (s.reg x ≠ kk → t.pc = s.pc + 4#16) ∧
        (s.reg x = kk → t.pc = s.pc + 2#16) ∧ Unchanged s t (fun p => p = .pc))

/-- SE Vx, Vy and SNE Vx, Vy; with x = y the first always skips and the second never does. -/
def Obligations.RegisterSkipsCompare : Prop :=
  ∀ (x y : Reg) (s : State),
    (∃ t, exec (.seReg x y) s = .next t ∧ (s.reg x = s.reg y → t.pc = s.pc + 4#16) ∧
      (s.reg x ≠ s.reg y → t.pc = s.pc + 2#16) ∧ (x = y → t.pc = s.pc + 4#16) ∧ Unchanged s t (fun p => p = .pc)) ∧
    (∃ t, exec (.sneReg x y) s = .next t ∧ (s.reg x ≠ s.reg y → t.pc = s.pc + 4#16) ∧
      (s.reg x = s.reg y → t.pc = s.pc + 2#16) ∧ (x = y → t.pc = s.pc + 2#16) ∧ Unchanged s t (fun p => p = .pc))

/-- A dispatcher step writes a stack slot only when it executes a CALL, and then the slot at SP. -/
def Obligations.OnlyCallWritesTheStack : Prop :=
  ∀ (s t : State) (j : Fin 16), dispatcherStep s = .next t → t.stack[j.val] ≠ s.stack[j.val] →
    s.mode = .running ∧ j.val = s.sp.val ∧ (∃ nnn, decode s.fetchWord = .instr (.call nnn)) ∧ t.stack[j.val] = s.pc

/-! ### Index register and memory (43_index_memory.md, 20_memory.md) -/

/-- R220: LD I, addr, its encoding and its effect. -/
def Obligations.LoadIndexSetsI : Prop :=
  ∀ nnn : Addr, decode (0xA000#16 ||| nnn.setWidth 16) = .instr (.ldI nnn) ∧
    ∀ s : State, ∃ t, exec (.ldI nnn) s = .next t ∧ t.i.toNat = nnn.toNat ∧ t.i.toNat ≤ 0xFFF ∧ t.pc = s.pc + 2#16 ∧
      Unchanged s t (fun p => p = .i ∨ p = .pc)

/-- ADD I, Vx adds modulo 2^16 and writes no flag (the spec's decision D11); LD F, Vx points at the glyph of the low nibble,
at FONT_BASE + 5 * d (D5, D6). -/
def Obligations.IndexArithmetic : Prop :=
  ∀ (x : Reg) (s : State),
    (∃ t, exec (.addI x) s = .next t ∧ t.i.toNat = (s.i.toNat + (s.reg x).toNat) % 65536 ∧ t.pc = s.pc + 2#16 ∧
      Unchanged s t (fun p => p = .i ∨ p = .pc)) ∧
    (∃ t, exec (.ldF x) s = .next t ∧ t.i.toNat = fontBase + 5 * ((s.reg x).toNat % 16) ∧ t.pc = s.pc + 2#16 ∧
      Unchanged s t (fun p => p = .i ∨ p = .pc))

/-- LD B, Vx stores the three decimal digits at IAddr(0), IAddr(1), IAddr(2), most significant first, and no other byte
(the spec's decisions D8, D17). -/
def Obligations.BcdStoresThreeDigits : Prop :=
  ∀ (x : Reg) (s : State), ∃ t, exec (.ldB x) s = .next t ∧ t.pc = s.pc + 2#16 ∧
    (t.readMem (iAddr s.i 0)).toNat * 100 + (t.readMem (iAddr s.i 1)).toNat * 10 + (t.readMem (iAddr s.i 2)).toNat =
      (s.reg x).toNat ∧
    (t.readMem (iAddr s.i 0)).toNat ≤ 2 ∧ (t.readMem (iAddr s.i 1)).toNat ≤ 9 ∧ (t.readMem (iAddr s.i 2)).toNat ≤ 9 ∧
    Unchanged s t (fun p => (∃ k < 3, p = .mem (iAddr s.i k)) ∨ p = .pc)

/-- LD [I], Vx stores V0..Vx at IAddr(0)..IAddr(x) and no other byte; I is unchanged (the spec's decisions D8, D16). -/
def Obligations.DumpStoresRegisters : Prop :=
  ∀ (x : Reg) (s : State), ∃ t, exec (.storeRegs x) s = .next t ∧ t.pc = s.pc + 2#16 ∧
    (∀ r : Reg, r.val ≤ x.val → t.readMem (iAddr s.i r.val) = s.reg r) ∧
    Unchanged s t (fun p => (∃ k ≤ x.val, p = .mem (iAddr s.i k)) ∨ p = .pc)

/-- LD Vx, [I] loads V0..Vx from IAddr(0)..IAddr(x) and no other register; I and memory are unchanged (the spec's
decisions D8, D16). -/
def Obligations.LoadReadsRegisters : Prop :=
  ∀ (x : Reg) (s : State), ∃ t, exec (.loadRegs x) s = .next t ∧ t.pc = s.pc + 2#16 ∧
    (∀ r : Reg, r.val ≤ x.val → t.reg r = s.readMem (iAddr s.i r.val)) ∧
    Unchanged s t (fun p => (∃ r : Reg, r.val ≤ x.val ∧ p = .v r) ∨ p = .pc)

/-- A dump and then a load of the same registers with I and memory as the dump left them brings the registers back, whatever
they held in between. -/
def Obligations.DumpThenLoadRestores : Prop :=
  ∀ (x : Reg) (s t u w : State), exec (.storeRegs x) s = .next t → u.mem = t.mem → u.i = t.i →
    exec (.loadRegs x) u = .next w → ∀ r : Reg, r.val ≤ x.val → w.reg r = s.reg r

/-- Each byte that LD [I], Vx or LD B, Vx stores into the next word, one or both, is fetched as stored, and a byte of the
next word that it does not store to is fetched as it was (the spec's decision D35; the wrap and the digit order are its
decisions D8 and D17). -/
def Obligations.StoredCodeIsFetched : Prop :=
  ∀ (x : Reg) (s : State),
    (∃ t, exec (.storeRegs x) s = .next t ∧ (Fetchable t.pc →
      FetchesStored s t (fun a b => ∃ r : Reg, r.val ≤ x.val ∧ a = iAddr s.i r.val ∧ b = s.reg r))) ∧
    (∃ t, exec (.ldB x) s = .next t ∧ (Fetchable t.pc →
      FetchesStored s t (fun a b =>
        (a = iAddr s.i 0 ∧ b.toNat = (s.reg x).toNat / 100) ∨
        (a = iAddr s.i 1 ∧ b.toNat = (s.reg x).toNat / 10 % 10) ∨
        (a = iAddr s.i 2 ∧ b.toNat = (s.reg x).toNat % 10))))

/-- A dispatcher step changes a memory byte only when it executes LD B, Vx or LD [I], Vx, and then one of the bytes that
instruction stores to. -/
def Obligations.OnlyStoresWriteMemory : Prop :=
  ∀ (s t : State) (a : Addr), dispatcherStep s = .next t → t.readMem a ≠ s.readMem a →
    s.mode = .running ∧
      ((∃ x, decode s.fetchWord = .instr (.ldB x) ∧ ∃ k < 3, a = iAddr s.i k) ∨
       (∃ x, decode s.fetchWord = .instr (.storeRegs x) ∧ ∃ k ≤ x.val, a = iAddr s.i k))

/-- Memories in canonical form that read the same everywhere are the same data (the representation is the model's, log 15). -/
def Obligations.CanonicalMemoriesAreEqualData : Prop :=
  ∀ m m' : Memory, m.wf = true → m'.wf = true → (∀ a : Addr, m.read a = m'.read a) → m = m'

/-! ### Display (44_display.md) -/

/-- R250: CLS, its encoding and its effect: every pixel 0, the strobe asserted, VF not written. -/
def Obligations.ClsClearsTheFramebuffer : Prop :=
  decode 0x00E0#16 = .instr .cls ∧
    ∀ s : State, ∃ t, exec .cls s = .next t ∧ (∀ p, t.pixel p = false) ∧ t.fbStrobe = true ∧ t.pc = s.pc + 2#16 ∧
      Unchanged s t (fun p => (∃ q, p = .pixel q) ∨ p = .fbStrobe ∨ p = .pc)

/-- DRW inverts exactly the pixels a set sprite bit falls on, wrapping at the edges, from V[x] and V[y] as they were; VF is 1
exactly when one of them was on; n = 0 draws nothing (the spec's decisions D8, D18, D36). -/
def Obligations.DrawInvertsCoveredPixels : Prop :=
  ∀ (x y : Reg) (n : Fin 16) (s : State), ∃ t, exec (.drw x y n) s = .next t ∧
    (∀ p, Covers s x y n.val p → t.pixel p = !s.pixel p) ∧
    (∀ p, ¬ Covers s x y n.val p → t.pixel p = s.pixel p) ∧
    (t.reg vf = 1#8 ↔ ∃ p, Covers s x y n.val p ∧ s.pixel p = true) ∧ (t.reg vf = 0#8 ∨ t.reg vf = 1#8) ∧
    t.fbStrobe = true ∧ t.pc = s.pc + 2#16 ∧
    Unchanged s t (fun p => (∃ q, p = .pixel q) ∨ p = .v vf ∨ p = .fbStrobe ∨ p = .pc)

/-- Drawing the same sprite twice at the same place leaves the framebuffer as it was, and the second draw's VF says whether
the first turned a pixel on. Between the two draws anything else may change, VF brought back included. -/
def Obligations.DrawTwiceIsAnInvolution : Prop :=
  ∀ (x y : Reg) (n : Fin 16) (s t u w : State), exec (.drw x y n) s = .next t →
    u.fb = t.fb → u.i = s.i → u.reg x = s.reg x → u.reg y = s.reg y → (∀ k < n.val, u.readI k = s.readI k) →
    exec (.drw x y n) u = .next w →
    w.fb = s.fb ∧ (w.reg vf = 1#8 ↔ ∃ p, Covers s x y n.val p ∧ s.pixel p = false)

/-- Only 00E0 and Dxyn write FB; no other event but reset does; the host reads it through `fb` in every state, and its read
changes nothing but the step outputs (44_display.md). The port's numbering of the pixels is the spec's decision D1 (log 11),
and that the outputs go back to 0 is the model's (log 8). -/
def Obligations.OnlyClsAndDrawWriteTheFramebuffer : Prop :=
  (∀ (e : HostEvent) (s t : State) (p : Pixel), applyEvent e s = .next t → e ≠ .rst → t.pixel p ≠ s.pixel p →
    e = .step ∧ s.mode = .running ∧
      (decode s.fetchWord = .instr .cls ∨ ∃ x y n, decode s.fetchWord = .instr (.drw x y n))) ∧
  (∀ s : State, ∃ t, applyEvent .hostRead s = .next t ∧
    (∀ p : Pixel, t.fbPort.getLsbD (64 * p.1.val + p.2.val) = s.pixel p) ∧
    Unchanged s t (fun p => p = .fbStrobe ∨ p = .unk))

/-- The step outputs: `fb_strobe` is asserted exactly by the steps that execute CLS or DRW, `unk_evt` exactly by those that
execute SYS or an unknown word, and every other event leaves both 0 (the spec's decisions D21, D28). -/
def Obligations.OutputsDescribeTheStepJustTaken : Prop :=
  ∀ (s t : State),
    (dispatcherStep s = .next t →
      (t.fbStrobe = true ↔ s.mode = .running ∧ Fetchable s.pc ∧
        (decode s.fetchWord = .instr .cls ∨ ∃ x y n, decode s.fetchWord = .instr (.drw x y n))) ∧
      (t.unkEvt = true ↔ s.mode = .running ∧ Fetchable s.pc ∧
        ((∃ nnn, decode s.fetchWord = .instr (.sys nnn)) ∨ ∃ op, decode s.fetchWord = .unknown op))) ∧
    (∀ e, applyEvent e s = .next t → e ≠ .step → t.fbStrobe = false ∧ t.unkEvt = false ∧ t.unkOp = 0#16 ∧ t.unkPc = 0#16)

/-! ### Timers and keys (45_timers_keys.md, 60_exceptions.md) -/

/-- R270, R271, R272: LD Vx, DT, LD DT, Vx and LD ST, Vx, their encodings and their effects; after LD ST, Vx the tone is on
over fewer ticks than V[x] and off from V[x] ticks on. -/
def Obligations.TimerRegistersMove : Prop :=
  ∀ x : Reg,
    decode (wordX 0xF007#16 x 0#16) = .instr (.ldVxDt x) ∧ decode (wordX 0xF015#16 x 0#16) = .instr (.ldDtVx x) ∧
    decode (wordX 0xF018#16 x 0#16) = .instr (.ldStVx x) ∧
    ∀ s : State,
      (∃ t, exec (.ldVxDt x) s = .next t ∧ t.reg x = s.dt ∧ t.pc = s.pc + 2#16 ∧
        Unchanged s t (fun p => p = .v x ∨ p = .pc)) ∧
      (∃ t, exec (.ldDtVx x) s = .next t ∧ t.dt = s.reg x ∧ t.pc = s.pc + 2#16 ∧
        Unchanged s t (fun p => p = .dt ∨ p = .pc)) ∧
      (∃ t, exec (.ldStVx x) s = .next t ∧ t.st = s.reg x ∧ t.pc = s.pc + 2#16 ∧
        (t.tone = true ↔ s.reg x ≠ 0#8) ∧
        ((∀ code, s.mode ≠ .halted code) → ∀ n : Nat, ∃ u, runEvents (List.replicate n .tick) t = .next u ∧
          (u.tone = true ↔ n < (s.reg x).toNat)) ∧
        Unchanged s t (fun p => p = .st ∨ p = .pc))

/-- R320: on a tick of a CORE that is not Halted each nonzero counter goes down by exactly one and neither goes below 0;
N ticks after holding N leave it at 0, where it stays. -/
def Obligations.TickCountsDown : Prop :=
  (∀ s : State, (∀ code, s.mode ≠ .halted code) → ∃ t, applyEvent .tick s = .next t ∧
    (s.dt.toNat > 0 → t.dt.toNat + 1 = s.dt.toNat) ∧ (s.dt.toNat = 0 → t.dt.toNat = 0) ∧
    (s.st.toNat > 0 → t.st.toNat + 1 = s.st.toNat) ∧ (s.st.toNat = 0 → t.st.toNat = 0) ∧
    Unchanged s t (fun p => p = .dt ∨ p = .st ∨ p = .fbStrobe ∨ p = .unk)) ∧
  (∀ (s : State) (n : Nat), (∀ code, s.mode ≠ .halted code) → s.dt.toNat ≤ n →
    ∃ t, runEvents (List.replicate n .tick) s = .next t ∧ t.dt = 0#8)

/-- A tick does not reach a Halted CORE, and reaches a waiting one (the spec's decision D30). -/
def Obligations.TicksStopOnlyWhenHalted : Prop :=
  ∀ s : State,
    (∀ code, s.mode = .halted code → ∃ t, applyEvent .tick s = .next t ∧ t.dt = s.dt ∧ t.st = s.st ∧
      Unchanged s t (fun p => p = .fbStrobe ∨ p = .unk)) ∧
    (∀ r, s.mode = .waitingForKey r → ∃ t, applyEvent .tick s = .next t ∧ t.mode = .waitingForKey r ∧
      t.dt.toNat = s.dt.toNat - 1 ∧ t.st.toNat = s.st.toNat - 1)

/-- SKP and SKNP test the key of the low nibble of V[x] (the spec's decision D7). -/
def Obligations.KeySkipsTestTheKey : Prop :=
  ∀ (x : Reg) (s : State),
    (∃ t, exec (.skp x) s = .next t ∧
      (s.key.getLsbD ((s.reg x).toNat % 16) = true → t.pc = s.pc + 4#16) ∧
      (s.key.getLsbD ((s.reg x).toNat % 16) = false → t.pc = s.pc + 2#16) ∧ Unchanged s t (fun p => p = .pc)) ∧
    (∃ t, exec (.sknp x) s = .next t ∧
      (s.key.getLsbD ((s.reg x).toNat % 16) = false → t.pc = s.pc + 4#16) ∧
      (s.key.getLsbD ((s.reg x).toNat % 16) = true → t.pc = s.pc + 2#16) ∧ Unchanged s t (fun p => p = .pc))

/-- LD Vx, K enters the wait with the keys as they are and holds PC; a key held at entry does not end the wait at the next
poll (the spec's decision D22). -/
def Obligations.KeyWaitIsEntered : Prop :=
  ∀ (x : Reg) (s : State), ∃ t, exec (.ldVxK x) s = .next t ∧ t.mode = .waitingForKey x ∧ t.keyPrev = s.key ∧
    t.pc = s.pc ∧ Unchanged s t (fun p => p = .mode ∨ p = .keyPrev) ∧
    (∃ u, dispatcherStep t = .next u ∧ u.mode = .waitingForKey x ∧ u.reg x = s.reg x ∧ u.pc = s.pc)

/-- A wait poll resumes on the lowest key that rose since the last observation, writing its code, and otherwise changes only
KEYPREV and the outputs (the spec's decision D22). -/
def Obligations.WaitPollResumesOnAKeyEdge : Prop :=
  ∀ (s : State) (r : Reg), s.mode = .waitingForKey r →
    (∀ k : Fin 16, s.key.getLsbD k.val = true → s.keyPrev.getLsbD k.val = false →
      (∀ j : Fin 16, j.val < k.val → ¬ (s.key.getLsbD j.val = true ∧ s.keyPrev.getLsbD j.val = false)) →
      ∃ t, dispatcherStep s = .next t ∧ (t.reg r).toNat = k.val ∧ t.pc = s.pc + 2#16 ∧ t.mode = .running ∧
        t.keyPrev = s.key ∧
        Unchanged s t (fun p => p = .v r ∨ p = .pc ∨ p = .mode ∨ p = .keyPrev ∨ p = .fbStrobe ∨ p = .unk ∨ p = .started)) ∧
    ((∀ k : Fin 16, ¬ (s.key.getLsbD k.val = true ∧ s.keyPrev.getLsbD k.val = false)) →
      ∃ t, dispatcherStep s = .next t ∧ t.keyPrev = s.key ∧ t.mode = .waitingForKey r ∧
        Unchanged s t (fun p => p = .keyPrev ∨ p = .fbStrobe ∨ p = .unk ∨ p = .started))

/-- Only a host key write changes KEY between resets; it writes all 16 keys in every MODE and, outputs apart, nothing else
(the spec's decision D29). -/
def Obligations.OnlyTheHostWritesKeys : Prop :=
  (∀ (k : BitVec 16) (s : State), ∃ t, applyEvent (.keyWrite k) s = .next t ∧ t.key = k ∧
    Unchanged s t (fun p => p = .key ∨ p = .fbStrobe ∨ p = .unk)) ∧
  (∀ (e : HostEvent) (s t : State), applyEvent e s = .next t → (∀ k, e ≠ .keyWrite k) → e ≠ .rst → t.key = s.key)

/-! ### Ports (10_state.md), reset and loading (70_reset_and_hazards.md) -/

/-- The output ports show the state: each bit of `fb`, `tone`, and the status outputs (the spec's decisions D1, D24). -/
def Obligations.PortsShowTheState : Prop :=
  ∀ s : State,
    (∀ p : Pixel, s.fbPort.getLsbD (64 * p.1.val + p.2.val) = s.pixel p) ∧
    (s.tone = true ↔ s.st.toNat ≠ 0) ∧
    (s.mode = .running → s.statusMode.toNat = 0 ∧ s.statusWaitReg.toNat = 0 ∧ s.statusErr.toNat = 0) ∧
    (∀ r, s.mode = .waitingForKey r → s.statusMode.toNat = 1 ∧ s.statusWaitReg.toNat = r.val ∧ s.statusErr.toNat = 0) ∧
    (∀ code, s.mode = .halted code → s.statusMode.toNat = 2 ∧ s.statusWaitReg.toNat = 0) ∧
    (s.mode = .halted .stackOverflow → s.statusErr.toNat = 1) ∧
    (s.mode = .halted .stackUnderflow → s.statusErr.toNat = 2) ∧
    (s.mode = .halted .pcMisaligned → s.statusErr.toNat = 3) ∧
    (s.mode = .halted .pcOutOfRange → s.statusErr.toNat = 4)

/-- Reset puts every state element at its reset value from any state (the PC and the font are the spec's decisions D4, D5;
the events and the draws are the model's own and stay, log 12). -/
def Obligations.ResetRestoresEveryElement : Prop :=
  ∀ s : State, ∃ t, applyEvent .rst s = .next t ∧ (∀ r, t.reg r = 0#8) ∧ t.i = 0#16 ∧ t.pc = 0x200#16 ∧ t.sp.val = 0 ∧
    (∀ j : Fin 16, t.stack[j.val] = 0#16) ∧ t.dt = 0#8 ∧ t.st = 0#8 ∧ (∀ p, t.pixel p = false) ∧ t.key = 0#16 ∧
    t.keyPrev = 0#16 ∧ t.mode = .running ∧ t.fbStrobe = false ∧ t.unk = none ∧ t.started = false ∧
    (∀ a : Addr, a.toNat ≥ 0x050 → t.readMem a = 0#8) ∧
    (∀ (d : Fin 16) (k : Fin 5), t.readMem (BitVec.ofNat 12 (5 * d.val + k.val)) =
      (fontTable.getD d.val []).getD k.val 0#8) ∧
    Unchanged State.reset t (fun p => p = .events ∨ p = .draws)

/-- Before the first step, an image of at most 3584 bytes is loaded verbatim at 0x200 and no other byte changes, and the
load port writes the one byte it is given, at any address (the spec's decisions D1, D34; loading as one event is the model's,
log 6, and so is the port's range of addresses, log 13). -/
def Obligations.RomIsLoadedVerbatim : Prop :=
  ∀ s : State, s.started = false →
    (∀ bytes : List Byte, bytes.length ≤ 3584 →
      ∃ t, applyEvent (.loadRom (some bytes)) s = .next t ∧
        (∀ (j : Nat) (h : j < bytes.length), t.readMem (BitVec.ofNat 12 (0x200 + j)) = bytes[j]) ∧
        Unchanged s t (fun p => (∃ j < bytes.length, p = .mem (BitVec.ofNat 12 (0x200 + j))) ∨ p = .fbStrobe ∨ p = .unk)) ∧
    (∀ (a : Addr) (b : Byte), ∃ t, applyEvent (.load a b) s = .next t ∧ t.readMem a = b ∧
      Unchanged s t (fun p => p = .mem a ∨ p = .fbStrobe ∨ p = .unk))

/-- What the loader refuses: an unreadable path, an image above 3584 bytes, and any write after the first step (the spec's
decision D34; the refusal is the model's, log 5). -/
def Obligations.LoaderErrors : Prop :=
  ∀ s : State,
    (s.started = false → applyEvent (.loadRom none) s = .fault .fileError ∧
      ∀ bytes : List Byte, bytes.length > 3584 → applyEvent (.loadRom (some bytes)) s = .fault .romTooLarge) ∧
    (s.started = true → (∀ a b, applyEvent (.load a b) s = .refused .loaderAfterStart) ∧
      ∀ image, applyEvent (.loadRom image) s = .refused .loaderAfterStart)

/-! ### The whole machine -/

/-- The invariant holds at reset. -/
def Obligations.ResetMeetsTheInvariant : Prop := StateInv State.reset

/-- Every step keeps the invariant, from every state that has it and whatever events the host sends. -/
def Obligations.StepKeepsTheInvariant : Prop :=
  ∀ s t : State, StateInv s → step s = .next t → StateInv t

/-- The events of the list are taken in order, each by one step: as many steps as there are events run the whole list (the
list is the model's own, log 1). -/
def Obligations.StepsRunTheEventsInOrder : Prop :=
  ∀ (es : List HostEvent) (s t : State), s.events = es → runEvents es s = .next t →
    runSteps es.length s = .next { t with events := [] }

/-- A machine at rest stays at rest under every event of a running CORE, and only DT, ST, KEY and the outputs change (the
spec's decision D33). -/
def Obligations.AtRestNothingElseChanges : Prop :=
  ∀ (es : List HostEvent) (s t : State), AtRest s → (∀ e ∈ es, RunningEvent e) → runEvents es s = .next t →
    AtRest t ∧ Unchanged s t (fun p => p = .dt ∨ p = .st ∨ p = .key ∨ p = .fbStrobe ∨ p = .unk ∨ p = .started)

/-- Under a fair schedule of running events, the timers of a machine at rest both reach 0 and stay there (the spec's
decisions D2, D33). -/
def Obligations.FairScheduleRunsTimersOut : Prop :=
  ∀ (sched : Nat → HostEvent) (s : State), AtRest s → Fair sched → (∀ n, RunningEvent (sched n)) →
    ∃ N, ∀ n, N ≤ n → ∃ t, runEvents (firstEvents sched n) s = .next t ∧ t.dt = 0#8 ∧ t.st = 0#8
end

