-- ==== Sys2Proof/Laws/Asm.lean ====
section
/-! SUPPORT. The assembler syntax: each piece of text is read as it is written (30_encoding.md R98). -/

namespace Sys2Proof.Machine

/-! ### Numbers -/

theorem hexValue_hexChar (d : Fin 16) : hexValue (hexChar d) = some d.val := by revert d; decide

theorem hexDigits_length (n v : Nat) : (hexDigits n v).length = n := by
  induction n generalizing v with
  | zero => rfl
  | succ n ih => simp [hexDigits, ih]

theorem digitsValue_append (xs : List Char) (d : Fin 16) (acc : Nat) :
    digitsValue 16 (xs ++ [hexChar d]) acc = (digitsValue 16 xs acc).map fun v => v * 16 + d.val := by
  induction xs generalizing acc with
  | nil => simp [digitsValue, hexValue_hexChar]
  | cons c cs ih =>
    simp only [List.cons_append, digitsValue]
    cases hexValue c with
    | none => rfl
    | some e =>
      by_cases he : e < 16
      · simp [he, ih]
      · simp [he]

theorem digitsValue_hexDigits (n v : Nat) : digitsValue 16 (hexDigits n v) 0 = some (v % 16 ^ n) := by
  induction n generalizing v with
  | zero => simp [hexDigits, digitsValue, Nat.mod_one]
  | succ n ih =>
    simp only [hexDigits, digitsValue_append, ih, Option.map_some, Fin.val_ofNat]
    rw [Nat.pow_succ', Nat.mod_mul, Nat.add_comm, Nat.mul_comm]

theorem numberOf?_hex (n d : Nat) (h : n < 16 ^ (d + 1)) :
    numberOf? ('0' :: 'x' :: hexDigits (d + 1) n) = some (.num n (d + 1)) := by
  have hl := hexDigits_length (d + 1) n
  have hne : hexDigits (d + 1) n ≠ [] := by intro h0; simp [h0] at hl
  simp [numberOf?, digitsOf?, hne, digitsValue_hexDigits, Nat.mod_eq_of_lt h, hl]

theorem operandOf?_hex (n d : Nat) (h : n < 16 ^ (d + 1)) :
    operandOf? ('0' :: 'x' :: hexDigits (d + 1) n) = some (.num n (d + 1)) := by
  rw [← numberOf?_hex n d h]
  match hc : hexDigits (d + 1) n, hexDigits_length (d + 1) n with
  | c :: cs, _ => rfl

/-! ### Operands -/

theorem operandOf?_reg (r : Reg) : operandOf? (AsmOperand.reg r).chars = some (.reg r) := by revert r; decide

theorem operandOf?_nibble (n : Fin 16) : operandOf? (AsmOperand.num n.val 0).chars = some (.num n.val 0) := by
  revert n; decide

theorem operandOf?_addr (a : Addr) : operandOf? (asmAddr a).chars = some (asmAddr a) :=
  operandOf?_hex a.toNat 2 (by have := a.isLt; omega)

theorem operandOf?_byte (b : Byte) : operandOf? (asmByte b).chars = some (asmByte b) :=
  operandOf?_hex b.toNat 1 (by have := b.isLt; omega)

theorem operandOf?_named : ∀ o ∈ namedOperands, operandOf? o.chars = some o := by decide

/-- A character that neither ends an operand nor is left out. -/
def PlainChar (c : Char) : Prop := c ≠ ',' ∧ c ≠ ' '

theorem hexChar_plain (d : Fin 16) : PlainChar (hexChar d) := by revert d; unfold PlainChar; decide

theorem hexDigits_plain (n v : Nat) : ∀ c ∈ hexDigits n v, PlainChar c := by
  induction n generalizing v with
  | zero => intro c hc; simp [hexDigits] at hc
  | succ n ih =>
    intro c hc
    simp only [hexDigits, List.mem_append, List.mem_singleton] at hc
    rcases hc with hc | rfl
    · exact ih _ c hc
    · exact hexChar_plain _

theorem operand_plain (o : AsmOperand) : ∀ c ∈ o.chars, PlainChar c := by
  have h0 : PlainChar '0' := ⟨by decide, by decide⟩
  have hx : PlainChar 'x' := ⟨by decide, by decide⟩
  cases o with
  | reg r =>
    intro c hc
    simp only [AsmOperand.chars, List.mem_cons, List.not_mem_nil, or_false] at hc
    rcases hc with rfl | rfl
    · exact ⟨by decide, by decide⟩
    · exact hexChar_plain r
  | num n d =>
    cases d with
    | zero =>
      intro c hc
      simp only [AsmOperand.chars, decimalNibble] at hc
      split at hc
      · rw [List.mem_singleton] at hc; rw [hc]; exact hexChar_plain _
      · simp only [List.mem_cons, List.not_mem_nil, or_false] at hc
        rcases hc with rfl | rfl
        · exact ⟨by decide, by decide⟩
        · exact hexChar_plain _
    | succ d =>
      intro c hc
      simp only [AsmOperand.chars, List.mem_cons] at hc
      rcases hc with rfl | rfl | hc
      · exact h0
      · exact hx
      · exact hexDigits_plain _ _ c hc
  | i => simp [AsmOperand.chars, PlainChar]
  | dt => simp [AsmOperand.chars, PlainChar]
  | st => simp [AsmOperand.chars, PlainChar]
  | k => simp [AsmOperand.chars, PlainChar]
  | f => simp [AsmOperand.chars, PlainChar]
  | b => simp [AsmOperand.chars, PlainChar]
  | mem => simp [AsmOperand.chars, PlainChar]

theorem splitOperands_plain {cs : List Char} (h : ∀ c ∈ cs, PlainChar c) (acc rest : List Char) :
    splitOperands acc (cs ++ rest) = splitOperands (cs.reverse ++ acc) rest := by
  induction cs generalizing acc with
  | nil => rfl
  | cons c cs ih =>
    have hc := h c (by simp)
    simp only [List.cons_append, splitOperands, hc.1, hc.2, if_false]
    rw [ih (fun d hd => h d (List.mem_cons_of_mem c hd))]
    simp

/-- The operands of a written line are cut apart as they were put together. -/
theorem splitOperands_operandsChars (o : AsmOperand) (os : List AsmOperand) :
    splitOperands [] (operandsChars (o :: os)) = (o :: os).map AsmOperand.chars := by
  induction os generalizing o with
  | nil =>
    have := splitOperands_plain (operand_plain o) [] []
    simpa [operandsChars, splitOperands] using this
  | cons p ps ih =>
    have := splitOperands_plain (operand_plain o) [] (',' :: ' ' :: operandsChars (p :: ps))
    simp only [operandsChars, List.append_assoc, List.cons_append, List.nil_append, this]
    simp [splitOperands, ih]

theorem operand_chars_ne (o : AsmOperand) : o.chars ≠ [] := by
  cases o with
  | num n d =>
    cases d with
    | zero =>
      simp only [AsmOperand.chars, decimalNibble]
      split <;> simp
    | succ d => simp [AsmOperand.chars]
  | _ => simp [AsmOperand.chars]

theorem mapM_operandOf? {os : List AsmOperand} (h : ∀ o ∈ os, operandOf? o.chars = some o) :
    (os.map AsmOperand.chars).mapM operandOf? = some os := by
  induction os with
  | nil => rfl
  | cons o os ih =>
    rw [List.map_cons, List.mapM_cons, h o (by simp), ih fun p hp => h p (List.mem_cons_of_mem _ hp)]
    rfl

/-- Written operands are read back. -/
theorem operandsOf?_written {os : List AsmOperand} (h : ∀ o ∈ os, operandOf? o.chars = some o) :
    operandsOf? (operandsChars os) = some os := by
  cases os with
  | nil => rfl
  | cons o os =>
    have hne : (o :: os).map AsmOperand.chars ≠ [[]] := by simp [operand_chars_ne]
    rw [operandsOf?, splitOperands_operandsChars, if_neg hne, mapM_operandOf? h]

/-! ### Lines -/

theorem mnemonic_read (m : Mnemonic) : (Mnemonic.all.find? fun m' => m'.chars = m.chars) = some m := by
  cases m <;> decide

theorem mnemonic_plain (m : Mnemonic) : ∀ c ∈ m.chars, c ≠ ' ' := by
  cases m <;> simp [Mnemonic.chars]

theorem splitWord_append {cs : List Char} (h : ∀ c ∈ cs, c ≠ ' ') (rest : List Char) :
    splitWord (cs ++ ' ' :: rest) = (cs, rest) := by
  induction cs with
  | nil => simp [splitWord]
  | cons c cs ih =>
    simp [splitWord, h c (by simp), ih fun d hd => h d (List.mem_cons_of_mem _ hd)]

theorem splitWord_all {cs : List Char} (h : ∀ c ∈ cs, c ≠ ' ') : splitWord cs = (cs, []) := by
  induction cs with
  | nil => rfl
  | cons c cs ih =>
    simp [splitWord, h c (by simp), ih fun d hd => h d (List.mem_cons_of_mem _ hd)]

/-- A written line is read back, whenever each of its operands is. -/
theorem parseLine_chars (line : AsmLine) (h : ∀ o ∈ line.operands, operandOf? o.chars = some o) :
    parseLine line.chars = some line := by
  obtain ⟨m, os⟩ := line
  cases os with
  | nil =>
    simp only [AsmLine.chars, if_true, List.append_nil, parseLine, splitWord_all (mnemonic_plain m), mnemonic_read]
    rfl
  | cons o os =>
    have hw := splitWord_append (mnemonic_plain m) (operandsChars (o :: os))
    simp only [AsmLine.chars, reduceCtorEq, if_false, parseLine, hw, mnemonic_read, operandsOf?_written h]
    rfl

/-! ### Instructions -/

@[simp] theorem addrOf?_toNat (a : Addr) : addrOf? a.toNat = some a := by simp [addrOf?, a.isLt]

@[simp] theorem byteOf?_toNat (b : Byte) : byteOf? b.toNat = some b := by simp [byteOf?, b.isLt]

@[simp] theorem nibbleOf?_val (n : Fin 16) : nibbleOf? n.val = some n := by simp [nibbleOf?]

/-- Every operand an instruction is written with is read back. -/
theorem asmLine_operands (i : Instr) : ∀ o ∈ (asmLine i).operands, operandOf? o.chars = some o := by
  have hi := operandOf?_named .i (by decide)
  have hdt := operandOf?_named .dt (by decide)
  have hst := operandOf?_named .st (by decide)
  have hk := operandOf?_named .k (by decide)
  have hf := operandOf?_named .f (by decide)
  have hb := operandOf?_named .b (by decide)
  have hm := operandOf?_named .mem (by decide)
  cases i <;> simp [asmLine, operandOf?_reg, operandOf?_addr, operandOf?_byte, operandOf?_nibble, *]

/-- The form an instruction is written in stands for it. -/
theorem assembleForm_asmLine (i : Instr) : assembleForm (asmLine i).mnemonic (asmLine i).operands = some i := by
  cases i <;> simp [assembleForm, asmLine, assembleNone, assembleAddr, assembleReg, assembleRegByte, assembleRegReg,
    assembleCompare, assembleShift, assembleDrw, assembleLd, assembleLdReg, assembleJp, assembleAdd, asmAddr, asmByte]

end Sys2Proof.Machine
end

