-- ==== Sys2Proof/Laws/Decode.lean ====
section
/-! SUPPORT. Fields of words built from digits, and the opcode table's masks as digits (30_encoding.md R91, R95). -/

namespace Sys2Proof

theorem opFamily_toNat (op : Word) : opFamily op = op.toNat / 4096 := by
  have := op.isLt
  simp only [opFamily, BitVec.extractLsb'_toNat, Nat.shiftRight_eq_div_pow]
  omega

theorem opX_val (op : Word) : (opX op).val = op.toNat / 256 % 16 := by
  simp only [opX, Fin.ofNat, BitVec.extractLsb'_toNat, Nat.shiftRight_eq_div_pow]
  omega

theorem opY_val (op : Word) : (opY op).val = op.toNat / 16 % 16 := by
  simp only [opY, Fin.ofNat, BitVec.extractLsb'_toNat, Nat.shiftRight_eq_div_pow]
  omega

theorem opN_val (op : Word) : (opN op).val = op.toNat % 16 := by
  simp only [opN, Fin.ofNat, BitVec.extractLsb'_toNat, Nat.shiftRight_eq_div_pow]
  omega

theorem opKK_toNat (op : Word) : (opKK op).toNat = op.toNat % 256 := by
  simp only [opKK, BitVec.extractLsb'_toNat, Nat.shiftRight_eq_div_pow]
  omega

theorem opNNN_toNat (op : Word) : (opNNN op).toNat = op.toNat % 4096 := by
  simp only [opNNN, BitVec.extractLsb'_toNat, Nat.shiftRight_eq_div_pow]
  omega

theorem hexWord_toNat {a b c d : Nat} (ha : a < 16) (hb : b < 16) (hc : c < 16) (hd : d < 16) :
    (hexWord a b c d).toNat = a * 4096 + b * 256 + c * 16 + d := by
  simp only [hexWord, BitVec.toNat_ofNat]
  omega

theorem encNNN_toNat {f : Nat} (hf : f < 16) (nnn : Addr) : (encNNN f nnn).toNat = f * 4096 + nnn.toNat := by
  have := nnn.isLt
  simp only [encNNN, BitVec.toNat_ofNat]
  omega

theorem encXKK_toNat {f : Nat} (hf : f < 16) (x : Reg) (kk : Byte) :
    (encXKK f x kk).toNat = f * 4096 + x.val * 256 + kk.toNat := by
  have := kk.isLt
  simp only [encXKK, BitVec.toNat_ofNat]
  omega

/-- The word of the two bytes of a word is that word (20_memory.md R62). -/
theorem wordOfBytes_high_low (w : Word) : wordOfBytes (highByte w) (lowByte w) = w := by
  apply BitVec.eq_of_toNat_eq
  have := w.isLt
  simp only [wordOfBytes, highByte, lowByte, BitVec.toNat_ofNat]
  omega

theorem wordOfBytes_toNat (hi lo : Byte) : (wordOfBytes hi lo).toNat = hi.toNat * 256 + lo.toNat := by
  have := hi.isLt
  have := lo.isLt
  simp only [wordOfBytes, BitVec.toNat_ofNat]
  omega

/-! ### The masks of the table as digits -/

/-- Masking with F000 keeps the family digit. -/
theorem and_F000 (op : Word) : op &&& 0xF000#16 = BitVec.ofNat 16 (op.toNat / 4096 * 4096) := by
  have h : op &&& 0xF000#16 = (op >>> 12) <<< 12 := by
    ext i hi
    simp only [BitVec.getElem_and, BitVec.getElem_shiftLeft]
    interval_cases i <;> simp
  apply BitVec.eq_of_toNat_eq
  have := op.isLt
  rw [h]
  simp only [BitVec.toNat_shiftLeft, BitVec.toNat_ushiftRight, Nat.shiftRight_eq_div_pow, Nat.shiftLeft_eq,
    BitVec.toNat_ofNat]

/-- Masking with 000F keeps the last digit. -/
theorem and_000F (op : Word) : op &&& 0x000F#16 = BitVec.ofNat 16 (op.toNat % 16) := by
  have h : op &&& 0x000F#16 = (op.setWidth 4).setWidth 16 := by
    ext i hi
    simp only [BitVec.getElem_and, BitVec.getElem_setWidth, BitVec.getLsbD_setWidth]
    interval_cases i <;> simp
  apply BitVec.eq_of_toNat_eq
  rw [h]
  simp only [BitVec.toNat_setWidth, BitVec.toNat_ofNat]

/-- Masking with 00FF keeps the low byte. -/
theorem and_00FF (op : Word) : op &&& 0x00FF#16 = BitVec.ofNat 16 (op.toNat % 256) := by
  have h : op &&& 0x00FF#16 = (op.setWidth 8).setWidth 16 := by
    ext i hi
    simp only [BitVec.getElem_and, BitVec.getElem_setWidth, BitVec.getLsbD_setWidth]
    interval_cases i <;> simp
  apply BitVec.eq_of_toNat_eq
  rw [h]
  simp only [BitVec.toNat_setWidth, BitVec.toNat_ofNat]

/-- Masking with F00F keeps the family digit and the last digit. -/
theorem and_F00F (op : Word) :
    op &&& 0xF00F#16 = BitVec.ofNat 16 (op.toNat / 4096 * 4096) ||| BitVec.ofNat 16 (op.toNat % 16) := by
  rw [← and_F000, ← and_000F, ← BitVec.and_or_distrib_left]; rfl

/-- Masking with F0FF keeps the family digit and the low byte. -/
theorem and_F0FF (op : Word) :
    op &&& 0xF0FF#16 = BitVec.ofNat 16 (op.toNat / 4096 * 4096) ||| BitVec.ofNat 16 (op.toNat % 256) := by
  rw [← and_F000, ← and_00FF, ← BitVec.and_or_distrib_left]; rfl

/-- A word of family `f` matches a row with mask F000. -/
theorem fits_F000 {op : Word} {f : Nat} (hf : op.toNat / 4096 = f) :
    (OpcodeRow.mk (BitVec.ofNat 16 (f * 4096)) 0xF000).fits op = true := by
  simp only [OpcodeRow.fits, beq_iff_eq]
  exact (and_F000 op).trans (by rw [hf])

/-- A word of family `f` with last digit `n` matches a row with mask F00F. -/
theorem fits_F00F {op : Word} {f n : Nat} (hf : op.toNat / 4096 = f) (hn : op.toNat % 16 = n) :
    (OpcodeRow.mk (BitVec.ofNat 16 (f * 4096) ||| BitVec.ofNat 16 n) 0xF00F).fits op = true := by
  simp only [OpcodeRow.fits, beq_iff_eq]
  exact (and_F00F op).trans (by rw [hf, hn])

/-- A word of family `f` with low byte `kk` matches a row with mask F0FF. -/
theorem fits_F0FF {op : Word} {f kk : Nat} (hf : op.toNat / 4096 = f) (hk : op.toNat % 256 = kk) :
    (OpcodeRow.mk (BitVec.ofNat 16 (f * 4096) ||| BitVec.ofNat 16 kk) 0xF0FF).fits op = true := by
  simp only [OpcodeRow.fits, beq_iff_eq]
  exact (and_F0FF op).trans (by rw [hf, hk])

/-! ### The digits of an encoding, by pattern (R91, R94) -/

theorem encNNN_family {f : Nat} (hf : f < 16) (nnn : Addr) : (encNNN f nnn).toNat / 4096 = f := by
  have := nnn.isLt
  rw [encNNN_toNat hf]; omega

theorem encXKK_family {f : Nat} (hf : f < 16) (x : Reg) (kk : Byte) : (encXKK f x kk).toNat / 4096 = f := by
  have := x.isLt
  have := kk.isLt
  rw [encXKK_toNat hf]; omega

theorem hexWord_family {a b c d : Nat} (ha : a < 16) (hb : b < 16) (hc : c < 16) (hd : d < 16) :
    (hexWord a b c d).toNat / 4096 = a := by
  rw [hexWord_toNat ha hb hc hd]; omega

theorem hexWord_last {a b c d : Nat} (ha : a < 16) (hb : b < 16) (hc : c < 16) (hd : d < 16) :
    (hexWord a b c d).toNat % 16 = d := by
  rw [hexWord_toNat ha hb hc hd]; omega

theorem hexWord_low {a b c d : Nat} (ha : a < 16) (hb : b < 16) (hc : c < 16) (hd : d < 16) :
    (hexWord a b c d).toNat % 256 = c * 16 + d := by
  rw [hexWord_toNat ha hb hc hd]; omega

/-! ### The decode, family by family (R93) -/

theorem opFamily_lt (op : Word) : opFamily op < 16 := by
  have := op.isLt
  rw [opFamily_toNat]; omega

theorem decode_family0 {op : Word} (h : opFamily op = 0x0) : decode op = decodeFamily0 op := by
  simp [decode, h]

theorem decode_family1 {op : Word} (h : opFamily op = 0x1) : decode op = .instr (.jp (opNNN op)) := by
  simp [decode, h]

theorem decode_family2 {op : Word} (h : opFamily op = 0x2) : decode op = .instr (.call (opNNN op)) := by
  simp [decode, h]

theorem decode_family3 {op : Word} (h : opFamily op = 0x3) : decode op = .instr (.seByte (opX op) (opKK op)) := by
  simp [decode, h]

theorem decode_family4 {op : Word} (h : opFamily op = 0x4) : decode op = .instr (.sneByte (opX op) (opKK op)) := by
  simp [decode, h]

theorem decode_family5 {op : Word} (h : opFamily op = 0x5) :
    decode op = if (opN op).val = 0 then .instr (.seReg (opX op) (opY op)) else .unknown op := by
  simp [decode, h]

theorem decode_family6 {op : Word} (h : opFamily op = 0x6) : decode op = .instr (.ldByte (opX op) (opKK op)) := by
  simp [decode, h]

theorem decode_family7 {op : Word} (h : opFamily op = 0x7) : decode op = .instr (.addByte (opX op) (opKK op)) := by
  simp [decode, h]

theorem decode_family8 {op : Word} (h : opFamily op = 0x8) : decode op = decodeFamily8 op := by
  simp [decode, h]

theorem decode_family9 {op : Word} (h : opFamily op = 0x9) :
    decode op = if (opN op).val = 0 then .instr (.sneReg (opX op) (opY op)) else .unknown op := by
  simp [decode, h]

theorem decode_familyA {op : Word} (h : opFamily op = 0xA) : decode op = .instr (.ldI (opNNN op)) := by
  simp [decode, h]

theorem decode_familyB {op : Word} (h : opFamily op = 0xB) : decode op = .instr (.jpV0 (opNNN op)) := by
  simp [decode, h]

theorem decode_familyC {op : Word} (h : opFamily op = 0xC) : decode op = .instr (.rnd (opX op) (opKK op)) := by
  simp [decode, h]

theorem decode_familyD {op : Word} (h : opFamily op = 0xD) :
    decode op = .instr (.drw (opX op) (opY op) (opN op)) := by
  simp [decode, h]

theorem decode_familyE {op : Word} (h : opFamily op = 0xE) : decode op = decodeFamilyE op := by
  simp [decode, h]

theorem decode_familyF {op : Word} (h : opFamily op = 0xF) : decode op = decodeFamilyF op := by
  simp [decode, h]

end Sys2Proof
end

