-- ==== Sys2Proof/Laws/Memory.lean ====
section
/-! SUPPORT. Memory: a read after a write, and the canonical form is kept (20_memory.md R69). -/

namespace Sys2Proof.Machine

theorem Memory.wfFrom_mono {m : Memory} {lo lo' : Nat} (h : lo' ≤ lo) (hm : Memory.wfFrom lo m = true) :
    Memory.wfFrom lo' m = true := by
  cases m with
  | nil => rfl
  | cons c rest =>
    simp only [Memory.wfFrom, Bool.and_eq_true, decide_eq_true_eq] at hm ⊢
    exact ⟨⟨⟨by omega, hm.1.1.2⟩, hm.1.2⟩, hm.2⟩

/-! ### insert and erase -/

theorem Memory.find_insert (m : Memory) (a : Nat) (b : Byte) (a' : Nat) :
    Memory.find (Memory.insert a b m) a' = if a = a' then b else Memory.find m a' := by
  induction m with
  | nil => simp [Memory.insert, Memory.find]
  | cons c rest ih =>
    simp only [Memory.insert]
    split
    · simp [Memory.find]
    · split
      · subst_vars; by_cases h : c.1 = a' <;> simp [Memory.find, h]
      · rename_i h1 h2
        by_cases h : c.1 = a'
        · have : a ≠ a' := fun e => h2 (e.trans h.symm)
          simp [Memory.find, h, this]
        · simp [Memory.find, h, ih]

theorem Memory.find_erase_other (m : Memory) {a a' : Nat} (h : a ≠ a') :
    Memory.find (Memory.erase a m) a' = Memory.find m a' := by
  induction m with
  | nil => rfl
  | cons c rest ih =>
    simp only [Memory.erase]
    split
    · rename_i hc; subst hc; simp [Memory.find, h, ih]
    · simp [Memory.find, ih]

theorem Memory.find_erase_same (m : Memory) (a : Nat) : Memory.find (Memory.erase a m) a = initialByte a := by
  induction m with
  | nil => rfl
  | cons c rest ih =>
    simp only [Memory.erase]
    split
    · exact ih
    · rename_i hc; simp only [Memory.find, hc, if_false]; exact ih

theorem Memory.wfFrom_insert {m : Memory} {lo a : Nat} {b : Byte} (hm : Memory.wfFrom lo m = true)
    (hlo : lo ≤ a) (ha : a < Config.memSize) (hb : b ≠ initialByte a) :
    Memory.wfFrom lo (Memory.insert a b m) = true := by
  induction m generalizing lo with
  | nil => simp [Memory.insert, Memory.wfFrom, hlo, ha, hb]
  | cons c rest ih =>
    simp only [Memory.wfFrom, Bool.and_eq_true, decide_eq_true_eq] at hm
    simp only [Memory.insert]
    split
    · rename_i h
      simp only [Memory.wfFrom, Bool.and_eq_true, decide_eq_true_eq]
      exact ⟨⟨⟨hlo, ha⟩, hb⟩, ⟨⟨by omega, hm.1.1.2⟩, hm.1.2⟩, hm.2⟩
    · split
      · rename_i h
        simp only [Memory.wfFrom, Bool.and_eq_true, decide_eq_true_eq]
        exact ⟨⟨⟨hlo, ha⟩, hb⟩, h ▸ hm.2⟩
      · simp only [Memory.wfFrom, Bool.and_eq_true, decide_eq_true_eq]
        exact ⟨hm.1, ih hm.2 (by omega)⟩

theorem Memory.wfFrom_erase {m : Memory} {lo : Nat} (hm : Memory.wfFrom lo m = true) (a : Nat) :
    Memory.wfFrom lo (Memory.erase a m) = true := by
  induction m generalizing lo with
  | nil => rfl
  | cons c rest ih =>
    simp only [Memory.wfFrom, Bool.and_eq_true, decide_eq_true_eq] at hm
    simp only [Memory.erase]
    split
    · exact Memory.wfFrom_mono (by omega) (ih hm.2)
    · simp only [Memory.wfFrom, Bool.and_eq_true, decide_eq_true_eq]
      exact ⟨hm.1, ih hm.2⟩

/-! ### The two laws of memory, and the canonical form -/

/-- Memory with nothing listed is canonical. -/
theorem Memory.wf_nil : Memory.wf [] = true := rfl

/-- A write keeps the canonical form. -/
theorem Memory.wf_write {m : Memory} (hm : m.wf = true) (a : Addr) (b : Byte) : (m.write a b).wf = true := by
  unfold Memory.write Memory.wf
  split
  · exact Memory.wfFrom_erase hm _
  · exact Memory.wfFrom_insert hm (by omega) (by have := a.isLt; simpa [Config.memSize] using this) ‹_›

/-- A read of the address written gives the byte written. -/
@[simp] theorem Memory.read_write_same (m : Memory) (a : Addr) (b : Byte) : (m.write a b).read a = b := by
  unfold Memory.write Memory.read
  split
  · rename_i h; rw [Memory.find_erase_same, h]
  · simp [Memory.find_insert]

/-- A read of any other address gives what it gave. -/
theorem Memory.read_write_other (m : Memory) {a a' : Addr} (b : Byte) (h : a ≠ a') :
    (m.write a b).read a' = m.read a' := by
  have hn : a.toNat ≠ a'.toNat := fun e => h (BitVec.eq_of_toNat_eq e)
  unfold Memory.write Memory.read
  split
  · exact Memory.find_erase_other _ hn
  · simp [Memory.find_insert, hn]

/-- A read after a write, in one line. -/
theorem Memory.read_write (m : Memory) (a : Addr) (b : Byte) (a' : Addr) :
    (m.write a b).read a' = if a = a' then b else m.read a' := by
  by_cases h : a = a'
  · subst h; simp
  · simp [h, Memory.read_write_other m b h]

/-- Two I-relative addresses of one instruction differ when their offsets do. -/
theorem iAddr_ne {i : Word} {k k' : Nat} (hk : k < 16) (hk' : k' < 16) (h : k ≠ k') : iAddr i k ≠ iAddr i k' := by
  intro e
  have := congrArg BitVec.toNat e
  simp only [iAddr, BitVec.toNat_ofNat] at this
  omega

end Sys2Proof.Machine
end

