-- ==== Sys2Proof/Laws/State.lean ====
section
/-! SUPPORT. One lemma per field per update of the state, so that no proof unfolds a record update; and the derived
updates in terms of these. -/

namespace Sys2Proof.Machine

/-! ### `setReg` -/

@[simp] theorem State.setReg_v (s : State) (r : Reg) (b : Byte) : (s.setReg r b).v = s.v.set r.val b := rfl
@[simp] theorem State.setReg_i (s : State) (r : Reg) (b : Byte) : (s.setReg r b).i = s.i := rfl
@[simp] theorem State.setReg_pc (s : State) (r : Reg) (b : Byte) : (s.setReg r b).pc = s.pc := rfl
@[simp] theorem State.setReg_sp (s : State) (r : Reg) (b : Byte) : (s.setReg r b).sp = s.sp := rfl
@[simp] theorem State.setReg_stack (s : State) (r : Reg) (b : Byte) : (s.setReg r b).stack = s.stack := rfl
@[simp] theorem State.setReg_dt (s : State) (r : Reg) (b : Byte) : (s.setReg r b).dt = s.dt := rfl
@[simp] theorem State.setReg_st (s : State) (r : Reg) (b : Byte) : (s.setReg r b).st = s.st := rfl
@[simp] theorem State.setReg_fb (s : State) (r : Reg) (b : Byte) : (s.setReg r b).fb = s.fb := rfl
@[simp] theorem State.setReg_key (s : State) (r : Reg) (b : Byte) : (s.setReg r b).key = s.key := rfl
@[simp] theorem State.setReg_keyPrev (s : State) (r : Reg) (b : Byte) : (s.setReg r b).keyPrev = s.keyPrev := rfl
@[simp] theorem State.setReg_mode (s : State) (r : Reg) (b : Byte) : (s.setReg r b).mode = s.mode := rfl
@[simp] theorem State.setReg_mem (s : State) (r : Reg) (b : Byte) : (s.setReg r b).mem = s.mem := rfl
@[simp] theorem State.setReg_fbStrobe (s : State) (r : Reg) (b : Byte) : (s.setReg r b).fbStrobe = s.fbStrobe := rfl
@[simp] theorem State.setReg_unk (s : State) (r : Reg) (b : Byte) : (s.setReg r b).unk = s.unk := rfl
@[simp] theorem State.setReg_started (s : State) (r : Reg) (b : Byte) : (s.setReg r b).started = s.started := rfl
@[simp] theorem State.setReg_draws (s : State) (r : Reg) (b : Byte) : (s.setReg r b).draws = s.draws := rfl
@[simp] theorem State.setReg_events (s : State) (r : Reg) (b : Byte) : (s.setReg r b).events = s.events := rfl

/-! ### `setPc` -/

@[simp] theorem State.setPc_v (s : State) (a : Word) : (s.setPc a).v = s.v := rfl
@[simp] theorem State.setPc_i (s : State) (a : Word) : (s.setPc a).i = s.i := rfl
@[simp] theorem State.setPc_pc (s : State) (a : Word) : (s.setPc a).pc = a := rfl
@[simp] theorem State.setPc_sp (s : State) (a : Word) : (s.setPc a).sp = s.sp := rfl
@[simp] theorem State.setPc_stack (s : State) (a : Word) : (s.setPc a).stack = s.stack := rfl
@[simp] theorem State.setPc_dt (s : State) (a : Word) : (s.setPc a).dt = s.dt := rfl
@[simp] theorem State.setPc_st (s : State) (a : Word) : (s.setPc a).st = s.st := rfl
@[simp] theorem State.setPc_fb (s : State) (a : Word) : (s.setPc a).fb = s.fb := rfl
@[simp] theorem State.setPc_key (s : State) (a : Word) : (s.setPc a).key = s.key := rfl
@[simp] theorem State.setPc_keyPrev (s : State) (a : Word) : (s.setPc a).keyPrev = s.keyPrev := rfl
@[simp] theorem State.setPc_mode (s : State) (a : Word) : (s.setPc a).mode = s.mode := rfl
@[simp] theorem State.setPc_mem (s : State) (a : Word) : (s.setPc a).mem = s.mem := rfl
@[simp] theorem State.setPc_fbStrobe (s : State) (a : Word) : (s.setPc a).fbStrobe = s.fbStrobe := rfl
@[simp] theorem State.setPc_unk (s : State) (a : Word) : (s.setPc a).unk = s.unk := rfl
@[simp] theorem State.setPc_started (s : State) (a : Word) : (s.setPc a).started = s.started := rfl
@[simp] theorem State.setPc_draws (s : State) (a : Word) : (s.setPc a).draws = s.draws := rfl
@[simp] theorem State.setPc_events (s : State) (a : Word) : (s.setPc a).events = s.events := rfl

/-! ### `setI` -/

@[simp] theorem State.setI_v (s : State) (w : Word) : (s.setI w).v = s.v := rfl
@[simp] theorem State.setI_i (s : State) (w : Word) : (s.setI w).i = w := rfl
@[simp] theorem State.setI_pc (s : State) (w : Word) : (s.setI w).pc = s.pc := rfl
@[simp] theorem State.setI_sp (s : State) (w : Word) : (s.setI w).sp = s.sp := rfl
@[simp] theorem State.setI_stack (s : State) (w : Word) : (s.setI w).stack = s.stack := rfl
@[simp] theorem State.setI_dt (s : State) (w : Word) : (s.setI w).dt = s.dt := rfl
@[simp] theorem State.setI_st (s : State) (w : Word) : (s.setI w).st = s.st := rfl
@[simp] theorem State.setI_fb (s : State) (w : Word) : (s.setI w).fb = s.fb := rfl
@[simp] theorem State.setI_key (s : State) (w : Word) : (s.setI w).key = s.key := rfl
@[simp] theorem State.setI_keyPrev (s : State) (w : Word) : (s.setI w).keyPrev = s.keyPrev := rfl
@[simp] theorem State.setI_mode (s : State) (w : Word) : (s.setI w).mode = s.mode := rfl
@[simp] theorem State.setI_mem (s : State) (w : Word) : (s.setI w).mem = s.mem := rfl
@[simp] theorem State.setI_fbStrobe (s : State) (w : Word) : (s.setI w).fbStrobe = s.fbStrobe := rfl
@[simp] theorem State.setI_unk (s : State) (w : Word) : (s.setI w).unk = s.unk := rfl
@[simp] theorem State.setI_started (s : State) (w : Word) : (s.setI w).started = s.started := rfl
@[simp] theorem State.setI_draws (s : State) (w : Word) : (s.setI w).draws = s.draws := rfl
@[simp] theorem State.setI_events (s : State) (w : Word) : (s.setI w).events = s.events := rfl

/-! ### `setDt` -/

@[simp] theorem State.setDt_v (s : State) (b : Byte) : (s.setDt b).v = s.v := rfl
@[simp] theorem State.setDt_i (s : State) (b : Byte) : (s.setDt b).i = s.i := rfl
@[simp] theorem State.setDt_pc (s : State) (b : Byte) : (s.setDt b).pc = s.pc := rfl
@[simp] theorem State.setDt_sp (s : State) (b : Byte) : (s.setDt b).sp = s.sp := rfl
@[simp] theorem State.setDt_stack (s : State) (b : Byte) : (s.setDt b).stack = s.stack := rfl
@[simp] theorem State.setDt_dt (s : State) (b : Byte) : (s.setDt b).dt = b := rfl
@[simp] theorem State.setDt_st (s : State) (b : Byte) : (s.setDt b).st = s.st := rfl
@[simp] theorem State.setDt_fb (s : State) (b : Byte) : (s.setDt b).fb = s.fb := rfl
@[simp] theorem State.setDt_key (s : State) (b : Byte) : (s.setDt b).key = s.key := rfl
@[simp] theorem State.setDt_keyPrev (s : State) (b : Byte) : (s.setDt b).keyPrev = s.keyPrev := rfl
@[simp] theorem State.setDt_mode (s : State) (b : Byte) : (s.setDt b).mode = s.mode := rfl
@[simp] theorem State.setDt_mem (s : State) (b : Byte) : (s.setDt b).mem = s.mem := rfl
@[simp] theorem State.setDt_fbStrobe (s : State) (b : Byte) : (s.setDt b).fbStrobe = s.fbStrobe := rfl
@[simp] theorem State.setDt_unk (s : State) (b : Byte) : (s.setDt b).unk = s.unk := rfl
@[simp] theorem State.setDt_started (s : State) (b : Byte) : (s.setDt b).started = s.started := rfl
@[simp] theorem State.setDt_draws (s : State) (b : Byte) : (s.setDt b).draws = s.draws := rfl
@[simp] theorem State.setDt_events (s : State) (b : Byte) : (s.setDt b).events = s.events := rfl

/-! ### `setSt` -/

@[simp] theorem State.setSt_v (s : State) (b : Byte) : (s.setSt b).v = s.v := rfl
@[simp] theorem State.setSt_i (s : State) (b : Byte) : (s.setSt b).i = s.i := rfl
@[simp] theorem State.setSt_pc (s : State) (b : Byte) : (s.setSt b).pc = s.pc := rfl
@[simp] theorem State.setSt_sp (s : State) (b : Byte) : (s.setSt b).sp = s.sp := rfl
@[simp] theorem State.setSt_stack (s : State) (b : Byte) : (s.setSt b).stack = s.stack := rfl
@[simp] theorem State.setSt_dt (s : State) (b : Byte) : (s.setSt b).dt = s.dt := rfl
@[simp] theorem State.setSt_st (s : State) (b : Byte) : (s.setSt b).st = b := rfl
@[simp] theorem State.setSt_fb (s : State) (b : Byte) : (s.setSt b).fb = s.fb := rfl
@[simp] theorem State.setSt_key (s : State) (b : Byte) : (s.setSt b).key = s.key := rfl
@[simp] theorem State.setSt_keyPrev (s : State) (b : Byte) : (s.setSt b).keyPrev = s.keyPrev := rfl
@[simp] theorem State.setSt_mode (s : State) (b : Byte) : (s.setSt b).mode = s.mode := rfl
@[simp] theorem State.setSt_mem (s : State) (b : Byte) : (s.setSt b).mem = s.mem := rfl
@[simp] theorem State.setSt_fbStrobe (s : State) (b : Byte) : (s.setSt b).fbStrobe = s.fbStrobe := rfl
@[simp] theorem State.setSt_unk (s : State) (b : Byte) : (s.setSt b).unk = s.unk := rfl
@[simp] theorem State.setSt_started (s : State) (b : Byte) : (s.setSt b).started = s.started := rfl
@[simp] theorem State.setSt_draws (s : State) (b : Byte) : (s.setSt b).draws = s.draws := rfl
@[simp] theorem State.setSt_events (s : State) (b : Byte) : (s.setSt b).events = s.events := rfl

/-! ### `setMode` -/

@[simp] theorem State.setMode_v (s : State) (m : Mode) : (s.setMode m).v = s.v := rfl
@[simp] theorem State.setMode_i (s : State) (m : Mode) : (s.setMode m).i = s.i := rfl
@[simp] theorem State.setMode_pc (s : State) (m : Mode) : (s.setMode m).pc = s.pc := rfl
@[simp] theorem State.setMode_sp (s : State) (m : Mode) : (s.setMode m).sp = s.sp := rfl
@[simp] theorem State.setMode_stack (s : State) (m : Mode) : (s.setMode m).stack = s.stack := rfl
@[simp] theorem State.setMode_dt (s : State) (m : Mode) : (s.setMode m).dt = s.dt := rfl
@[simp] theorem State.setMode_st (s : State) (m : Mode) : (s.setMode m).st = s.st := rfl
@[simp] theorem State.setMode_fb (s : State) (m : Mode) : (s.setMode m).fb = s.fb := rfl
@[simp] theorem State.setMode_key (s : State) (m : Mode) : (s.setMode m).key = s.key := rfl
@[simp] theorem State.setMode_keyPrev (s : State) (m : Mode) : (s.setMode m).keyPrev = s.keyPrev := rfl
@[simp] theorem State.setMode_mode (s : State) (m : Mode) : (s.setMode m).mode = m := rfl
@[simp] theorem State.setMode_mem (s : State) (m : Mode) : (s.setMode m).mem = s.mem := rfl
@[simp] theorem State.setMode_fbStrobe (s : State) (m : Mode) : (s.setMode m).fbStrobe = s.fbStrobe := rfl
@[simp] theorem State.setMode_unk (s : State) (m : Mode) : (s.setMode m).unk = s.unk := rfl
@[simp] theorem State.setMode_started (s : State) (m : Mode) : (s.setMode m).started = s.started := rfl
@[simp] theorem State.setMode_draws (s : State) (m : Mode) : (s.setMode m).draws = s.draws := rfl
@[simp] theorem State.setMode_events (s : State) (m : Mode) : (s.setMode m).events = s.events := rfl

/-! ### `latchKeys` -/

@[simp] theorem State.latchKeys_v (s : State) : (s.latchKeys).v = s.v := rfl
@[simp] theorem State.latchKeys_i (s : State) : (s.latchKeys).i = s.i := rfl
@[simp] theorem State.latchKeys_pc (s : State) : (s.latchKeys).pc = s.pc := rfl
@[simp] theorem State.latchKeys_sp (s : State) : (s.latchKeys).sp = s.sp := rfl
@[simp] theorem State.latchKeys_stack (s : State) : (s.latchKeys).stack = s.stack := rfl
@[simp] theorem State.latchKeys_dt (s : State) : (s.latchKeys).dt = s.dt := rfl
@[simp] theorem State.latchKeys_st (s : State) : (s.latchKeys).st = s.st := rfl
@[simp] theorem State.latchKeys_fb (s : State) : (s.latchKeys).fb = s.fb := rfl
@[simp] theorem State.latchKeys_key (s : State) : (s.latchKeys).key = s.key := rfl
@[simp] theorem State.latchKeys_keyPrev (s : State) : (s.latchKeys).keyPrev = s.key := rfl
@[simp] theorem State.latchKeys_mode (s : State) : (s.latchKeys).mode = s.mode := rfl
@[simp] theorem State.latchKeys_mem (s : State) : (s.latchKeys).mem = s.mem := rfl
@[simp] theorem State.latchKeys_fbStrobe (s : State) : (s.latchKeys).fbStrobe = s.fbStrobe := rfl
@[simp] theorem State.latchKeys_unk (s : State) : (s.latchKeys).unk = s.unk := rfl
@[simp] theorem State.latchKeys_started (s : State) : (s.latchKeys).started = s.started := rfl
@[simp] theorem State.latchKeys_draws (s : State) : (s.latchKeys).draws = s.draws := rfl
@[simp] theorem State.latchKeys_events (s : State) : (s.latchKeys).events = s.events := rfl

/-! ### `setMem` -/

@[simp] theorem State.setMem_v (s : State) (m : Memory) : (s.setMem m).v = s.v := rfl
@[simp] theorem State.setMem_i (s : State) (m : Memory) : (s.setMem m).i = s.i := rfl
@[simp] theorem State.setMem_pc (s : State) (m : Memory) : (s.setMem m).pc = s.pc := rfl
@[simp] theorem State.setMem_sp (s : State) (m : Memory) : (s.setMem m).sp = s.sp := rfl
@[simp] theorem State.setMem_stack (s : State) (m : Memory) : (s.setMem m).stack = s.stack := rfl
@[simp] theorem State.setMem_dt (s : State) (m : Memory) : (s.setMem m).dt = s.dt := rfl
@[simp] theorem State.setMem_st (s : State) (m : Memory) : (s.setMem m).st = s.st := rfl
@[simp] theorem State.setMem_fb (s : State) (m : Memory) : (s.setMem m).fb = s.fb := rfl
@[simp] theorem State.setMem_key (s : State) (m : Memory) : (s.setMem m).key = s.key := rfl
@[simp] theorem State.setMem_keyPrev (s : State) (m : Memory) : (s.setMem m).keyPrev = s.keyPrev := rfl
@[simp] theorem State.setMem_mode (s : State) (m : Memory) : (s.setMem m).mode = s.mode := rfl
@[simp] theorem State.setMem_mem (s : State) (m : Memory) : (s.setMem m).mem = m := rfl
@[simp] theorem State.setMem_fbStrobe (s : State) (m : Memory) : (s.setMem m).fbStrobe = s.fbStrobe := rfl
@[simp] theorem State.setMem_unk (s : State) (m : Memory) : (s.setMem m).unk = s.unk := rfl
@[simp] theorem State.setMem_started (s : State) (m : Memory) : (s.setMem m).started = s.started := rfl
@[simp] theorem State.setMem_draws (s : State) (m : Memory) : (s.setMem m).draws = s.draws := rfl
@[simp] theorem State.setMem_events (s : State) (m : Memory) : (s.setMem m).events = s.events := rfl

/-! ### `nextDraw` -/

@[simp] theorem State.nextDraw_v (s : State) : (s.nextDraw).v = s.v := rfl
@[simp] theorem State.nextDraw_i (s : State) : (s.nextDraw).i = s.i := rfl
@[simp] theorem State.nextDraw_pc (s : State) : (s.nextDraw).pc = s.pc := rfl
@[simp] theorem State.nextDraw_sp (s : State) : (s.nextDraw).sp = s.sp := rfl
@[simp] theorem State.nextDraw_stack (s : State) : (s.nextDraw).stack = s.stack := rfl
@[simp] theorem State.nextDraw_dt (s : State) : (s.nextDraw).dt = s.dt := rfl
@[simp] theorem State.nextDraw_st (s : State) : (s.nextDraw).st = s.st := rfl
@[simp] theorem State.nextDraw_fb (s : State) : (s.nextDraw).fb = s.fb := rfl
@[simp] theorem State.nextDraw_key (s : State) : (s.nextDraw).key = s.key := rfl
@[simp] theorem State.nextDraw_keyPrev (s : State) : (s.nextDraw).keyPrev = s.keyPrev := rfl
@[simp] theorem State.nextDraw_mode (s : State) : (s.nextDraw).mode = s.mode := rfl
@[simp] theorem State.nextDraw_mem (s : State) : (s.nextDraw).mem = s.mem := rfl
@[simp] theorem State.nextDraw_fbStrobe (s : State) : (s.nextDraw).fbStrobe = s.fbStrobe := rfl
@[simp] theorem State.nextDraw_unk (s : State) : (s.nextDraw).unk = s.unk := rfl
@[simp] theorem State.nextDraw_started (s : State) : (s.nextDraw).started = s.started := rfl
@[simp] theorem State.nextDraw_draws (s : State) : (s.nextDraw).draws = s.draws + 1 := rfl
@[simp] theorem State.nextDraw_events (s : State) : (s.nextDraw).events = s.events := rfl

/-! ### `drop` -/

@[simp] theorem State.drop_v (s : State) : (s.drop).v = s.v := rfl
@[simp] theorem State.drop_i (s : State) : (s.drop).i = s.i := rfl
@[simp] theorem State.drop_pc (s : State) : (s.drop).pc = s.pc := rfl
@[simp] theorem State.drop_stack (s : State) : (s.drop).stack = s.stack := rfl
@[simp] theorem State.drop_dt (s : State) : (s.drop).dt = s.dt := rfl
@[simp] theorem State.drop_st (s : State) : (s.drop).st = s.st := rfl
@[simp] theorem State.drop_fb (s : State) : (s.drop).fb = s.fb := rfl
@[simp] theorem State.drop_key (s : State) : (s.drop).key = s.key := rfl
@[simp] theorem State.drop_keyPrev (s : State) : (s.drop).keyPrev = s.keyPrev := rfl
@[simp] theorem State.drop_mode (s : State) : (s.drop).mode = s.mode := rfl
@[simp] theorem State.drop_mem (s : State) : (s.drop).mem = s.mem := rfl
@[simp] theorem State.drop_fbStrobe (s : State) : (s.drop).fbStrobe = s.fbStrobe := rfl
@[simp] theorem State.drop_unk (s : State) : (s.drop).unk = s.unk := rfl
@[simp] theorem State.drop_started (s : State) : (s.drop).started = s.started := rfl
@[simp] theorem State.drop_draws (s : State) : (s.drop).draws = s.draws := rfl
@[simp] theorem State.drop_events (s : State) : (s.drop).events = s.events := rfl

/-! ### `emitUnknown` -/

@[simp] theorem State.emitUnknown_v (s : State) (op : Word) : (s.emitUnknown op).v = s.v := rfl
@[simp] theorem State.emitUnknown_i (s : State) (op : Word) : (s.emitUnknown op).i = s.i := rfl
@[simp] theorem State.emitUnknown_pc (s : State) (op : Word) : (s.emitUnknown op).pc = s.pc := rfl
@[simp] theorem State.emitUnknown_sp (s : State) (op : Word) : (s.emitUnknown op).sp = s.sp := rfl
@[simp] theorem State.emitUnknown_stack (s : State) (op : Word) : (s.emitUnknown op).stack = s.stack := rfl
@[simp] theorem State.emitUnknown_dt (s : State) (op : Word) : (s.emitUnknown op).dt = s.dt := rfl
@[simp] theorem State.emitUnknown_st (s : State) (op : Word) : (s.emitUnknown op).st = s.st := rfl
@[simp] theorem State.emitUnknown_fb (s : State) (op : Word) : (s.emitUnknown op).fb = s.fb := rfl
@[simp] theorem State.emitUnknown_key (s : State) (op : Word) : (s.emitUnknown op).key = s.key := rfl
@[simp] theorem State.emitUnknown_keyPrev (s : State) (op : Word) : (s.emitUnknown op).keyPrev = s.keyPrev := rfl
@[simp] theorem State.emitUnknown_mode (s : State) (op : Word) : (s.emitUnknown op).mode = s.mode := rfl
@[simp] theorem State.emitUnknown_mem (s : State) (op : Word) : (s.emitUnknown op).mem = s.mem := rfl
@[simp] theorem State.emitUnknown_fbStrobe (s : State) (op : Word) : (s.emitUnknown op).fbStrobe = s.fbStrobe := rfl
@[simp] theorem State.emitUnknown_unk (s : State) (op : Word) : (s.emitUnknown op).unk = some ⟨op, s.pc⟩ := rfl
@[simp] theorem State.emitUnknown_started (s : State) (op : Word) : (s.emitUnknown op).started = s.started := rfl
@[simp] theorem State.emitUnknown_draws (s : State) (op : Word) : (s.emitUnknown op).draws = s.draws := rfl
@[simp] theorem State.emitUnknown_events (s : State) (op : Word) : (s.emitUnknown op).events = s.events := rfl

/-! ### `strobe` -/

@[simp] theorem State.strobe_v (s : State) : (s.strobe).v = s.v := rfl
@[simp] theorem State.strobe_i (s : State) : (s.strobe).i = s.i := rfl
@[simp] theorem State.strobe_pc (s : State) : (s.strobe).pc = s.pc := rfl
@[simp] theorem State.strobe_sp (s : State) : (s.strobe).sp = s.sp := rfl
@[simp] theorem State.strobe_stack (s : State) : (s.strobe).stack = s.stack := rfl
@[simp] theorem State.strobe_dt (s : State) : (s.strobe).dt = s.dt := rfl
@[simp] theorem State.strobe_st (s : State) : (s.strobe).st = s.st := rfl
@[simp] theorem State.strobe_fb (s : State) : (s.strobe).fb = s.fb := rfl
@[simp] theorem State.strobe_key (s : State) : (s.strobe).key = s.key := rfl
@[simp] theorem State.strobe_keyPrev (s : State) : (s.strobe).keyPrev = s.keyPrev := rfl
@[simp] theorem State.strobe_mode (s : State) : (s.strobe).mode = s.mode := rfl
@[simp] theorem State.strobe_mem (s : State) : (s.strobe).mem = s.mem := rfl
@[simp] theorem State.strobe_fbStrobe (s : State) : (s.strobe).fbStrobe = true := rfl
@[simp] theorem State.strobe_unk (s : State) : (s.strobe).unk = s.unk := rfl
@[simp] theorem State.strobe_started (s : State) : (s.strobe).started = s.started := rfl
@[simp] theorem State.strobe_draws (s : State) : (s.strobe).draws = s.draws := rfl
@[simp] theorem State.strobe_events (s : State) : (s.strobe).events = s.events := rfl

/-! ### `clearOutputs` -/

@[simp] theorem State.clearOutputs_v (s : State) : (s.clearOutputs).v = s.v := rfl
@[simp] theorem State.clearOutputs_i (s : State) : (s.clearOutputs).i = s.i := rfl
@[simp] theorem State.clearOutputs_pc (s : State) : (s.clearOutputs).pc = s.pc := rfl
@[simp] theorem State.clearOutputs_sp (s : State) : (s.clearOutputs).sp = s.sp := rfl
@[simp] theorem State.clearOutputs_stack (s : State) : (s.clearOutputs).stack = s.stack := rfl
@[simp] theorem State.clearOutputs_dt (s : State) : (s.clearOutputs).dt = s.dt := rfl
@[simp] theorem State.clearOutputs_st (s : State) : (s.clearOutputs).st = s.st := rfl
@[simp] theorem State.clearOutputs_fb (s : State) : (s.clearOutputs).fb = s.fb := rfl
@[simp] theorem State.clearOutputs_key (s : State) : (s.clearOutputs).key = s.key := rfl
@[simp] theorem State.clearOutputs_keyPrev (s : State) : (s.clearOutputs).keyPrev = s.keyPrev := rfl
@[simp] theorem State.clearOutputs_mode (s : State) : (s.clearOutputs).mode = s.mode := rfl
@[simp] theorem State.clearOutputs_mem (s : State) : (s.clearOutputs).mem = s.mem := rfl
@[simp] theorem State.clearOutputs_fbStrobe (s : State) : (s.clearOutputs).fbStrobe = false := rfl
@[simp] theorem State.clearOutputs_unk (s : State) : (s.clearOutputs).unk = none := rfl
@[simp] theorem State.clearOutputs_started (s : State) : (s.clearOutputs).started = s.started := rfl
@[simp] theorem State.clearOutputs_draws (s : State) : (s.clearOutputs).draws = s.draws := rfl
@[simp] theorem State.clearOutputs_events (s : State) : (s.clearOutputs).events = s.events := rfl

/-! ### `start` -/

@[simp] theorem State.start_v (s : State) : (s.start).v = s.v := rfl
@[simp] theorem State.start_i (s : State) : (s.start).i = s.i := rfl
@[simp] theorem State.start_pc (s : State) : (s.start).pc = s.pc := rfl
@[simp] theorem State.start_sp (s : State) : (s.start).sp = s.sp := rfl
@[simp] theorem State.start_stack (s : State) : (s.start).stack = s.stack := rfl
@[simp] theorem State.start_dt (s : State) : (s.start).dt = s.dt := rfl
@[simp] theorem State.start_st (s : State) : (s.start).st = s.st := rfl
@[simp] theorem State.start_fb (s : State) : (s.start).fb = s.fb := rfl
@[simp] theorem State.start_key (s : State) : (s.start).key = s.key := rfl
@[simp] theorem State.start_keyPrev (s : State) : (s.start).keyPrev = s.keyPrev := rfl
@[simp] theorem State.start_mode (s : State) : (s.start).mode = s.mode := rfl
@[simp] theorem State.start_mem (s : State) : (s.start).mem = s.mem := rfl
@[simp] theorem State.start_fbStrobe (s : State) : (s.start).fbStrobe = s.fbStrobe := rfl
@[simp] theorem State.start_unk (s : State) : (s.start).unk = s.unk := rfl
@[simp] theorem State.start_started (s : State) : (s.start).started = true := rfl
@[simp] theorem State.start_draws (s : State) : (s.start).draws = s.draws := rfl
@[simp] theorem State.start_events (s : State) : (s.start).events = s.events := rfl

/-! ### `setFb` -/

@[simp] theorem State.setFb_v (s : State) (fb : Framebuffer) : (s.setFb fb).v = s.v := rfl
@[simp] theorem State.setFb_i (s : State) (fb : Framebuffer) : (s.setFb fb).i = s.i := rfl
@[simp] theorem State.setFb_pc (s : State) (fb : Framebuffer) : (s.setFb fb).pc = s.pc := rfl
@[simp] theorem State.setFb_sp (s : State) (fb : Framebuffer) : (s.setFb fb).sp = s.sp := rfl
@[simp] theorem State.setFb_stack (s : State) (fb : Framebuffer) : (s.setFb fb).stack = s.stack := rfl
@[simp] theorem State.setFb_dt (s : State) (fb : Framebuffer) : (s.setFb fb).dt = s.dt := rfl
@[simp] theorem State.setFb_st (s : State) (fb : Framebuffer) : (s.setFb fb).st = s.st := rfl
@[simp] theorem State.setFb_fb (s : State) (fb : Framebuffer) : (s.setFb fb).fb = fb := rfl
@[simp] theorem State.setFb_key (s : State) (fb : Framebuffer) : (s.setFb fb).key = s.key := rfl
@[simp] theorem State.setFb_keyPrev (s : State) (fb : Framebuffer) : (s.setFb fb).keyPrev = s.keyPrev := rfl
@[simp] theorem State.setFb_mode (s : State) (fb : Framebuffer) : (s.setFb fb).mode = s.mode := rfl
@[simp] theorem State.setFb_mem (s : State) (fb : Framebuffer) : (s.setFb fb).mem = s.mem := rfl
@[simp] theorem State.setFb_fbStrobe (s : State) (fb : Framebuffer) : (s.setFb fb).fbStrobe = s.fbStrobe := rfl
@[simp] theorem State.setFb_unk (s : State) (fb : Framebuffer) : (s.setFb fb).unk = s.unk := rfl
@[simp] theorem State.setFb_started (s : State) (fb : Framebuffer) : (s.setFb fb).started = s.started := rfl
@[simp] theorem State.setFb_draws (s : State) (fb : Framebuffer) : (s.setFb fb).draws = s.draws := rfl
@[simp] theorem State.setFb_events (s : State) (fb : Framebuffer) : (s.setFb fb).events = s.events := rfl

/-! ### `popEvent` -/

@[simp] theorem State.popEvent_v (s : State) : (s.popEvent).v = s.v := rfl
@[simp] theorem State.popEvent_i (s : State) : (s.popEvent).i = s.i := rfl
@[simp] theorem State.popEvent_pc (s : State) : (s.popEvent).pc = s.pc := rfl
@[simp] theorem State.popEvent_sp (s : State) : (s.popEvent).sp = s.sp := rfl
@[simp] theorem State.popEvent_stack (s : State) : (s.popEvent).stack = s.stack := rfl
@[simp] theorem State.popEvent_dt (s : State) : (s.popEvent).dt = s.dt := rfl
@[simp] theorem State.popEvent_st (s : State) : (s.popEvent).st = s.st := rfl
@[simp] theorem State.popEvent_fb (s : State) : (s.popEvent).fb = s.fb := rfl
@[simp] theorem State.popEvent_key (s : State) : (s.popEvent).key = s.key := rfl
@[simp] theorem State.popEvent_keyPrev (s : State) : (s.popEvent).keyPrev = s.keyPrev := rfl
@[simp] theorem State.popEvent_mode (s : State) : (s.popEvent).mode = s.mode := rfl
@[simp] theorem State.popEvent_mem (s : State) : (s.popEvent).mem = s.mem := rfl
@[simp] theorem State.popEvent_fbStrobe (s : State) : (s.popEvent).fbStrobe = s.fbStrobe := rfl
@[simp] theorem State.popEvent_unk (s : State) : (s.popEvent).unk = s.unk := rfl
@[simp] theorem State.popEvent_started (s : State) : (s.popEvent).started = s.started := rfl
@[simp] theorem State.popEvent_draws (s : State) : (s.popEvent).draws = s.draws := rfl
@[simp] theorem State.popEvent_events (s : State) : (s.popEvent).events = s.events.tail := rfl

/-! ### `push` writes the stack and SP only -/

@[simp] theorem State.push_v (s : State) (w : Word) : (s.push w).v = s.v := by
  unfold State.push; split <;> rfl
@[simp] theorem State.push_i (s : State) (w : Word) : (s.push w).i = s.i := by
  unfold State.push; split <;> rfl
@[simp] theorem State.push_pc (s : State) (w : Word) : (s.push w).pc = s.pc := by
  unfold State.push; split <;> rfl
@[simp] theorem State.push_dt (s : State) (w : Word) : (s.push w).dt = s.dt := by
  unfold State.push; split <;> rfl
@[simp] theorem State.push_st (s : State) (w : Word) : (s.push w).st = s.st := by
  unfold State.push; split <;> rfl
@[simp] theorem State.push_fb (s : State) (w : Word) : (s.push w).fb = s.fb := by
  unfold State.push; split <;> rfl
@[simp] theorem State.push_key (s : State) (w : Word) : (s.push w).key = s.key := by
  unfold State.push; split <;> rfl
@[simp] theorem State.push_keyPrev (s : State) (w : Word) : (s.push w).keyPrev = s.keyPrev := by
  unfold State.push; split <;> rfl
@[simp] theorem State.push_mode (s : State) (w : Word) : (s.push w).mode = s.mode := by
  unfold State.push; split <;> rfl
@[simp] theorem State.push_mem (s : State) (w : Word) : (s.push w).mem = s.mem := by
  unfold State.push; split <;> rfl
@[simp] theorem State.push_fbStrobe (s : State) (w : Word) : (s.push w).fbStrobe = s.fbStrobe := by
  unfold State.push; split <;> rfl
@[simp] theorem State.push_unk (s : State) (w : Word) : (s.push w).unk = s.unk := by
  unfold State.push; split <;> rfl
@[simp] theorem State.push_started (s : State) (w : Word) : (s.push w).started = s.started := by
  unfold State.push; split <;> rfl
@[simp] theorem State.push_draws (s : State) (w : Word) : (s.push w).draws = s.draws := by
  unfold State.push; split <;> rfl
@[simp] theorem State.push_events (s : State) (w : Word) : (s.push w).events = s.events := by
  unfold State.push; split <;> rfl

/-! ### The reads of a register, a memory byte and a pixel, past an update of something else -/

@[simp] theorem State.setPc_reg (s : State) (a : Word) (r' : Reg) : (s.setPc a).reg r' = s.reg r' := rfl
@[simp] theorem State.setI_reg (s : State) (w : Word) (r' : Reg) : (s.setI w).reg r' = s.reg r' := rfl
@[simp] theorem State.setDt_reg (s : State) (b : Byte) (r' : Reg) : (s.setDt b).reg r' = s.reg r' := rfl
@[simp] theorem State.setSt_reg (s : State) (b : Byte) (r' : Reg) : (s.setSt b).reg r' = s.reg r' := rfl
@[simp] theorem State.setMode_reg (s : State) (m : Mode) (r' : Reg) : (s.setMode m).reg r' = s.reg r' := rfl
@[simp] theorem State.latchKeys_reg (s : State) (r' : Reg) : (s.latchKeys).reg r' = s.reg r' := rfl
@[simp] theorem State.setMem_reg (s : State) (m : Memory) (r' : Reg) : (s.setMem m).reg r' = s.reg r' := rfl
@[simp] theorem State.nextDraw_reg (s : State) (r' : Reg) : (s.nextDraw).reg r' = s.reg r' := rfl
@[simp] theorem State.drop_reg (s : State) (r' : Reg) : (s.drop).reg r' = s.reg r' := rfl
@[simp] theorem State.emitUnknown_reg (s : State) (op : Word) (r' : Reg) : (s.emitUnknown op).reg r' = s.reg r' := rfl
@[simp] theorem State.strobe_reg (s : State) (r' : Reg) : (s.strobe).reg r' = s.reg r' := rfl
@[simp] theorem State.clearOutputs_reg (s : State) (r' : Reg) : (s.clearOutputs).reg r' = s.reg r' := rfl
@[simp] theorem State.start_reg (s : State) (r' : Reg) : (s.start).reg r' = s.reg r' := rfl
@[simp] theorem State.setFb_reg (s : State) (fb : Framebuffer) (r' : Reg) : (s.setFb fb).reg r' = s.reg r' := rfl
@[simp] theorem State.popEvent_reg (s : State) (r' : Reg) : (s.popEvent).reg r' = s.reg r' := rfl
@[simp] theorem State.push_reg (s : State) (w : Word) (r' : Reg) : (s.push w).reg r' = s.reg r' := by
  simp [State.reg]
@[simp] theorem State.setReg_readMem (s : State) (r : Reg) (b : Byte) (x : Addr) : (s.setReg r b).readMem x = s.readMem x := rfl
@[simp] theorem State.setPc_readMem (s : State) (a : Word) (x : Addr) : (s.setPc a).readMem x = s.readMem x := rfl
@[simp] theorem State.setI_readMem (s : State) (w : Word) (x : Addr) : (s.setI w).readMem x = s.readMem x := rfl
@[simp] theorem State.setDt_readMem (s : State) (b : Byte) (x : Addr) : (s.setDt b).readMem x = s.readMem x := rfl
@[simp] theorem State.setSt_readMem (s : State) (b : Byte) (x : Addr) : (s.setSt b).readMem x = s.readMem x := rfl
@[simp] theorem State.setMode_readMem (s : State) (m : Mode) (x : Addr) : (s.setMode m).readMem x = s.readMem x := rfl
@[simp] theorem State.latchKeys_readMem (s : State) (x : Addr) : (s.latchKeys).readMem x = s.readMem x := rfl
@[simp] theorem State.nextDraw_readMem (s : State) (x : Addr) : (s.nextDraw).readMem x = s.readMem x := rfl
@[simp] theorem State.drop_readMem (s : State) (x : Addr) : (s.drop).readMem x = s.readMem x := rfl
@[simp] theorem State.emitUnknown_readMem (s : State) (op : Word) (x : Addr) : (s.emitUnknown op).readMem x = s.readMem x := rfl
@[simp] theorem State.strobe_readMem (s : State) (x : Addr) : (s.strobe).readMem x = s.readMem x := rfl
@[simp] theorem State.clearOutputs_readMem (s : State) (x : Addr) : (s.clearOutputs).readMem x = s.readMem x := rfl
@[simp] theorem State.start_readMem (s : State) (x : Addr) : (s.start).readMem x = s.readMem x := rfl
@[simp] theorem State.setFb_readMem (s : State) (fb : Framebuffer) (x : Addr) : (s.setFb fb).readMem x = s.readMem x := rfl
@[simp] theorem State.popEvent_readMem (s : State) (x : Addr) : (s.popEvent).readMem x = s.readMem x := rfl
@[simp] theorem State.push_readMem (s : State) (w : Word) (x : Addr) : (s.push w).readMem x = s.readMem x := by
  simp [State.readMem]
@[simp] theorem State.setReg_pixel (s : State) (r : Reg) (b : Byte) (p : Pixel) : (s.setReg r b).pixel p = s.pixel p := rfl
@[simp] theorem State.setPc_pixel (s : State) (a : Word) (p : Pixel) : (s.setPc a).pixel p = s.pixel p := rfl
@[simp] theorem State.setI_pixel (s : State) (w : Word) (p : Pixel) : (s.setI w).pixel p = s.pixel p := rfl
@[simp] theorem State.setDt_pixel (s : State) (b : Byte) (p : Pixel) : (s.setDt b).pixel p = s.pixel p := rfl
@[simp] theorem State.setSt_pixel (s : State) (b : Byte) (p : Pixel) : (s.setSt b).pixel p = s.pixel p := rfl
@[simp] theorem State.setMode_pixel (s : State) (m : Mode) (p : Pixel) : (s.setMode m).pixel p = s.pixel p := rfl
@[simp] theorem State.latchKeys_pixel (s : State) (p : Pixel) : (s.latchKeys).pixel p = s.pixel p := rfl
@[simp] theorem State.setMem_pixel (s : State) (m : Memory) (p : Pixel) : (s.setMem m).pixel p = s.pixel p := rfl
@[simp] theorem State.nextDraw_pixel (s : State) (p : Pixel) : (s.nextDraw).pixel p = s.pixel p := rfl
@[simp] theorem State.drop_pixel (s : State) (p : Pixel) : (s.drop).pixel p = s.pixel p := rfl
@[simp] theorem State.emitUnknown_pixel (s : State) (op : Word) (p : Pixel) : (s.emitUnknown op).pixel p = s.pixel p := rfl
@[simp] theorem State.strobe_pixel (s : State) (p : Pixel) : (s.strobe).pixel p = s.pixel p := rfl
@[simp] theorem State.clearOutputs_pixel (s : State) (p : Pixel) : (s.clearOutputs).pixel p = s.pixel p := rfl
@[simp] theorem State.start_pixel (s : State) (p : Pixel) : (s.start).pixel p = s.pixel p := rfl
@[simp] theorem State.popEvent_pixel (s : State) (p : Pixel) : (s.popEvent).pixel p = s.pixel p := rfl
@[simp] theorem State.push_pixel (s : State) (w : Word) (p : Pixel) : (s.push w).pixel p = s.pixel p := by
  simp [State.pixel]

/-! ### Derived updates, in terms of the ones above -/

@[simp] theorem State.seq_eq (s : State) : s.seq = s.setPc (s.pc + 2#16) := rfl

@[simp] theorem State.skip_eq (s : State) : s.skip = s.setPc (s.pc + 4#16) := rfl

@[simp] theorem State.skipIf_eq (s : State) (cond : Bool) :
    s.skipIf cond = s.setPc (s.pc + if cond then 4#16 else 2#16) := by
  cases cond <;> rfl

@[simp] theorem State.writeMem_eq (s : State) (a : Addr) (b : Byte) : s.writeMem a b = s.setMem (s.mem.write a b) := rfl

@[simp] theorem State.writeI_eq (s : State) (k : Nat) (b : Byte) :
    s.writeI k b = s.setMem (s.mem.write (iAddr s.i k) b) := rfl

@[simp] theorem State.raiseHalt_eq (s : State) (code : HaltCode) : s.raiseHalt code = s.setMode (.halted code) := rfl

end Sys2Proof.Machine
end

