-- ==== Sys2Proof/Laws/Registers.lean ====
section
/-! SUPPORT. Registers, flags and the call stack: what a read gives after a write. -/

namespace Sys2Proof.Machine

/-! ### V registers (10_state.md R20) -/

theorem State.reg_setReg (s : State) (r : Reg) (b : Byte) (r' : Reg) :
    (s.setReg r b).reg r' = if r = r' then b else s.reg r' := by
  simp only [State.reg, State.setReg_v, Vector.getElem_set, Fin.ext_iff]

@[simp] theorem State.reg_setReg_same (s : State) (r : Reg) (b : Byte) : (s.setReg r b).reg r = b := by
  simp [State.reg_setReg]

theorem State.reg_setReg_other (s : State) {r r' : Reg} (b : Byte) (h : r ≠ r') :
    (s.setReg r b).reg r' = s.reg r' := by
  simp [State.reg_setReg, h]

/-- A state with the same V has the same registers. -/
theorem State.reg_congr {s t : State} (h : t.v = s.v) (r : Reg) : t.reg r = s.reg r := by
  simp only [State.reg, h]

/-! ### The flag (10_state.md R21, R23) -/

/-- A flag instruction writes V[x] and then VF: VF ends as the flag, V[x] as the result unless it is VF, and nothing else
changes (41_register_alu.md, D13). -/
theorem State.setRegFlag_reg (s : State) (x : Reg) (b : Byte) (f : Bool) (r : Reg) :
    (s.setRegFlag x b f).reg r = if r = vf then flagByte f else if r = x then b else s.reg r := by
  simp only [State.setRegFlag, State.reg_setReg, eq_comm]

/-- The writes of a flag instruction, in order. -/
@[simp] theorem State.setRegFlag_eq (s : State) (x : Reg) (b : Byte) (f : Bool) :
    s.setRegFlag x b f = (s.setReg x b).setReg vf (flagByte f) := rfl

@[simp] theorem flagByte_true : flagByte true = 1#8 := rfl

@[simp] theorem flagByte_false : flagByte false = 0#8 := rfl

theorem flagByte_eq_one (f : Bool) : flagByte f = 1#8 ↔ f = true := by cases f <;> simp [flagByte]

/-! ### The call stack (42_control_flow.md R198, R199) -/

/-- What `push` does, once: with SP below 16 it writes the slot at SP and no other, and SP grows by 1. -/
theorem State.push_spec (s : State) (w : Word) (h : s.sp.val < 16) :
    (s.push w).sp.val = s.sp.val + 1 ∧
      ∀ j : Fin 16, (s.push w).stack[j.val] = if s.sp.val = j.val then w else s.stack[j.val] := by
  unfold State.push
  rw [dif_pos h]
  exact ⟨rfl, fun j => Vector.getElem_set h j.isLt⟩

/-- What `drop` does to SP. -/
theorem State.drop_sp (s : State) : s.drop.sp.val = s.sp.val - 1 := rfl

/-- The top after a push is the value pushed. -/
theorem State.top_push (s : State) (w : Word) (h : s.sp.val < 16) : (s.push w).top = w := by
  unfold State.top State.push
  simp [dif_pos h]

end Sys2Proof.Machine
end

