-- ==== Sys2Proof/Laws/Display.lean ====
section
/-! SUPPORT. The framebuffer: flipping a pixel, drawing a list of pixels, the pixels of a sprite (44_display.md R251). -/

namespace Sys2Proof.Machine

/-- A flip inverts its pixel and no other. -/
theorem Framebuffer.get_flip (fb : Framebuffer) (p q : Pixel) :
    Framebuffer.get (Framebuffer.flip fb p) q = ((Framebuffer.get fb q) ^^ decide (p = q)) := by
  obtain ⟨r, c⟩ := p
  obtain ⟨r', c'⟩ := q
  simp only [Framebuffer.get, Framebuffer.flip, Vector.getElem_set, Prod.mk.injEq, Fin.ext_iff]
  by_cases h : r.val = r'.val
  · have hc := c'.isLt
    simp [h, hc, eq_comm]
  · simp [h]

/-- A cleared framebuffer has no pixel on. -/
@[simp] theorem Framebuffer.get_clear (p : Pixel) : Framebuffer.get Framebuffer.clear p = false := by
  simp [Framebuffer.get, Framebuffer.clear]

/-- Two framebuffers with the same pixels are equal. -/
theorem Framebuffer.ext_get {fb fb' : Framebuffer} (h : ∀ p, Framebuffer.get fb p = Framebuffer.get fb' p) : fb = fb' := by
  apply Vector.ext
  intro r hr
  apply BitVec.eq_of_getLsbD_eq
  intro c hc
  exact h (⟨r, hr⟩, ⟨c, hc⟩)

/-- Drawing distinct pixels: each listed pixel is inverted, no other changes. -/
theorem drawPixels_get {ps : List Pixel} (hps : ps.Nodup) (fb : Framebuffer) (hit : Bool) (q : Pixel) :
    Framebuffer.get (drawPixels ps fb hit).1 q = ((Framebuffer.get fb q) ^^ decide (q ∈ ps)) := by
  induction ps generalizing fb hit with
  | nil => simp [drawPixels]
  | cons p ps ih =>
    obtain ⟨hp, hps⟩ := List.nodup_cons.mp hps
    rw [drawPixels, ih hps, Framebuffer.get_flip]
    by_cases h : p = q
    · subst h; simp [hp]
    · simp [h, Ne.symm h]

/-- Drawing distinct pixels: the collision flag says that a listed pixel was on. -/
theorem drawPixels_hit {ps : List Pixel} (hps : ps.Nodup) (fb : Framebuffer) (hit : Bool) :
    (drawPixels ps fb hit).2 = true ↔ hit = true ∨ ∃ p ∈ ps, Framebuffer.get fb p = true := by
  induction ps generalizing fb hit with
  | nil => simp [drawPixels]
  | cons p ps ih =>
    obtain ⟨hp, hps⟩ := List.nodup_cons.mp hps
    have keep : ∀ q ∈ ps, Framebuffer.get (Framebuffer.flip fb p) q = Framebuffer.get fb q := fun q hq => by
      have : p ≠ q := fun e => hp (e ▸ hq)
      simp [Framebuffer.get_flip, this]
    rw [drawPixels, ih hps]
    constructor
    · rintro (h | ⟨q, hq, h⟩)
      · rcases (Bool.or_eq_true _ _).mp h with h | h
        · exact .inl h
        · exact .inr ⟨p, List.mem_cons_self, h⟩
      · exact .inr ⟨q, List.mem_cons_of_mem _ hq, keep q hq ▸ h⟩
    · rintro (h | ⟨q, hq, h⟩)
      · exact .inl (by simp [h])
      · rcases List.mem_cons.mp hq with rfl | hq
        · exact .inl (by simp [h])
        · exact .inr ⟨q, hq, (keep q hq).symm ▸ h⟩

/-! ### The pixels of a sprite -/

theorem mem_rowPixels {cx cy : Byte} {r : Nat} {row : Byte} {p : Pixel} :
    p ∈ rowPixels cx cy r row ↔
      ∃ c < 8, row.getLsbD (7 - c) = true ∧ p.1.val = (cy.toNat + r) % 32 ∧ p.2.val = (cx.toNat + c) % 64 := by
  simp only [rowPixels, List.mem_map, List.mem_filter, List.mem_range]
  constructor
  · rintro ⟨c, ⟨hc, hb⟩, rfl⟩; exact ⟨c, hc, hb, rfl, rfl⟩
  · rintro ⟨c, hc, hb, h1, h2⟩; exact ⟨c, ⟨hc, hb⟩, Prod.ext (Fin.ext h1.symm) (Fin.ext h2.symm)⟩

theorem mem_spritePixels {cx cy : Byte} {rows : List Byte} {r : Nat} {p : Pixel} :
    p ∈ spritePixels cx cy r rows ↔ ∃ k, ∃ h : k < rows.length, p ∈ rowPixels cx cy (r + k) rows[k] := by
  induction rows generalizing r with
  | nil => simp [spritePixels]
  | cons row rows ih =>
    rw [spritePixels, List.mem_append, ih]
    constructor
    · rintro (h | ⟨k, hk, h⟩)
      · exact ⟨0, by simp, h⟩
      · exact ⟨k + 1, by simpa using hk, by simpa [Nat.add_assoc, Nat.add_comm 1] using h⟩
    · rintro ⟨k, hk, h⟩
      cases k with
      | zero => exact .inl h
      | succ k => exact .inr ⟨k, by simpa using hk, by simpa [Nat.add_assoc, Nat.add_comm 1] using h⟩

theorem rowPixels_nodup (cx cy : Byte) (r : Nat) (row : Byte) : (rowPixels cx cy r row).Nodup := by
  refine List.Nodup.map_on ?_ (List.Nodup.filter _ List.nodup_range)
  intro c hc c' hc' e
  have h1 := List.mem_range.mp (List.mem_filter.mp hc).1
  have h2 := List.mem_range.mp (List.mem_filter.mp hc').1
  have := congrArg (fun p : Pixel => p.2.val) e
  simp only [Fin.ofNat] at this
  omega

/-- No two set bits of one sprite reach the same pixel, since it has at most 32 rows of 8 columns (R251). -/
theorem spritePixels_nodup (cx cy : Byte) (rows : List Byte) (r : Nat) (h : rows.length ≤ 32) :
    (spritePixels cx cy r rows).Nodup := by
  induction rows generalizing r with
  | nil => exact List.nodup_nil
  | cons row rows ih =>
    simp only [List.length_cons] at h
    rw [spritePixels, List.nodup_append]
    refine ⟨rowPixels_nodup .., ih _ (by omega), ?_⟩
    rintro p hp q hq rfl
    obtain ⟨_, _, _, h1, _⟩ := mem_rowPixels.mp hp
    obtain ⟨k, hk, hq⟩ := mem_spritePixels.mp hq
    obtain ⟨_, _, _, h2, _⟩ := mem_rowPixels.mp hq
    omega

end Sys2Proof.Machine
end

