-- ==== Sys2Proof/Laws/IndexMemory.lean ====
section
/-! SUPPORT. The decimal store, the register dump and load, the loader's image: what each does, once (43_index_memory.md
R223, R224, R225). -/

namespace Sys2Proof.Machine

/-- The dump changes memory only. -/
theorem State.storeUpTo_eq (s : State) (n : Nat) : ∃ m, s.storeUpTo n = s.setMem m := by
  induction n with
  | zero => exact ⟨s.mem, rfl⟩
  | succ n ih => obtain ⟨m, hm⟩ := ih; exact ⟨_, by rw [State.storeUpTo, hm]; rfl⟩

/-- The dump keeps memory canonical. -/
theorem State.storeUpTo_wf {s : State} (h : s.mem.wf = true) (n : Nat) : (s.storeUpTo n).mem.wf = true := by
  induction n with
  | zero => exact h
  | succ n ih => exact Memory.wf_write ih _ _

/-- The dump of the first `n` registers: the byte at IAddr(k) is V[k] for every k below n. -/
theorem State.readMem_storeUpTo_inside (s : State) {n k : Nat} (hn : n ≤ 16) (hk : k < n) :
    (s.storeUpTo n).readMem (iAddr s.i k) = s.reg (Fin.ofNat 16 k) := by
  induction n with
  | zero => omega
  | succ n ih =>
    obtain ⟨m, hm⟩ := s.storeUpTo_eq n
    have hi : (s.storeUpTo n).i = s.i := by rw [hm]; rfl
    simp only [State.storeUpTo, State.writeI_eq, State.readMem, State.setMem_mem, hi]
    by_cases h : k = n
    · subst h; simp
    · rw [Memory.read_write_other _ _ (iAddr_ne (by omega) (by omega) (Ne.symm h))]
      exact ih (by omega) (by omega)

/-- The dump of the first `n` registers writes no byte outside IAddr(0) .. IAddr(n-1). -/
theorem State.readMem_storeUpTo_outside (s : State) {n : Nat} {a : Addr} (h : ∀ k < n, iAddr s.i k ≠ a) :
    (s.storeUpTo n).readMem a = s.readMem a := by
  induction n with
  | zero => rfl
  | succ n ih =>
    obtain ⟨m, hm⟩ := s.storeUpTo_eq n
    have hi : (s.storeUpTo n).i = s.i := by rw [hm]; rfl
    simp only [State.storeUpTo, State.writeI_eq, State.readMem, State.setMem_mem, hi]
    rw [Memory.read_write_other _ _ (h n (by omega))]
    exact ih fun k hk => h k (by omega)

/-- What LD B, Vx leaves in memory (43_index_memory.md R223): the three digits, and every other byte as it was. -/
theorem execLdB_readMem (x : Reg) (s : State) : ∃ t, execLdB x s = .next t ∧ t.pc = s.pc + 2#16 ∧ ∀ a : Addr,
    t.readMem a =
      if a = iAddr s.i 0 then hundreds (s.reg x) else if a = iAddr s.i 1 then tens (s.reg x)
      else if a = iAddr s.i 2 then units (s.reg x) else s.readMem a := by
  refine ⟨_, rfl, rfl, fun a => ?_⟩
  have h01 := iAddr_ne (i := s.i) (k := 0) (k' := 1) (by omega) (by omega) (by omega)
  have h02 := iAddr_ne (i := s.i) (k := 0) (k' := 2) (by omega) (by omega) (by omega)
  have h12 := iAddr_ne (i := s.i) (k := 1) (k' := 2) (by omega) (by omega) (by omega)
  have hr : ∀ u : State, u.seq.readMem a = u.readMem a := fun _ => rfl
  rw [hr]
  simp only [State.writeI, State.readMem, State.writeMem, State.setMem, Memory.read_write]
  by_cases h0 : a = iAddr s.i 0
  · subst h0; simp [h01.symm, h02.symm]
  · by_cases h1 : a = iAddr s.i 1
    · subst h1; simp [h01.symm, h12.symm]
    · by_cases h2 : a = iAddr s.i 2
      · subst h2; simp [h02.symm, h12.symm]
      · simp [Ne.symm h0, Ne.symm h1, Ne.symm h2, h0, h1, h2]

/-- The digits as numbers. -/
theorem hundreds_toNat (b : Byte) : (hundreds b).toNat = b.toNat / 100 := by
  have := b.isLt; simp only [hundreds, BitVec.toNat_ofNat]; omega

theorem tens_toNat (b : Byte) : (tens b).toNat = b.toNat / 10 % 10 := by
  have := b.isLt; simp only [tens, BitVec.toNat_ofNat]; omega

theorem units_toNat (b : Byte) : (units b).toNat = b.toNat % 10 := by
  have := b.isLt; simp only [units, BitVec.toNat_ofNat]; omega

/-- The load changes V only. -/
theorem State.loadUpTo_eq (s : State) (n : Nat) : ∃ v, s.loadUpTo n = { s with v := v } := by
  induction n with
  | zero => exact ⟨s.v, rfl⟩
  | succ n ih => obtain ⟨v, hv⟩ := ih; exact ⟨_, by rw [State.loadUpTo, hv]; rfl⟩

/-- The load of the first `n` registers: V[r] is the byte at IAddr(r) for r below n, and unchanged from n on. -/
theorem State.reg_loadUpTo (s : State) {n : Nat} (hn : n ≤ 16) (r : Reg) :
    (s.loadUpTo n).reg r = if r.val < n then s.readI r.val else s.reg r := by
  induction n with
  | zero => rfl
  | succ n ih =>
    have hof : (Fin.ofNat 16 n).val = n := Nat.mod_eq_of_lt (by omega)
    simp only [State.loadUpTo, State.reg_setReg, ih (by omega), Fin.ext_iff, hof]
    by_cases h : n = r.val
    · simp [h]
    · by_cases h' : r.val < n
      · simp [h, h', show r.val < n + 1 by omega]
      · simp [h, h', show ¬ r.val < n + 1 by omega]

/-- Writing an image keeps memory canonical. -/
theorem writeImage_wf {m : Memory} (h : m.wf = true) (a : Nat) (bs : List Byte) : (writeImage a bs m).wf = true := by
  induction bs generalizing a m with
  | nil => exact h
  | cons b bs ih => exact ih (Memory.wf_write h _ _) _

/-- Writing an image leaves every address below its first byte alone. -/
theorem writeImage_below (bs : List Byte) {m : Memory} {a : Nat} (ha : a + bs.length ≤ 4096) {x : Addr}
    (hx : x.toNat < a) : (writeImage a bs m).read x = m.read x := by
  induction bs generalizing a m with
  | nil => rfl
  | cons b bs ih =>
    simp only [List.length_cons] at ha
    rw [writeImage, ih (by omega) (by omega)]
    refine Memory.read_write_other _ _ fun e => ?_
    have := congrArg BitVec.toNat e
    simp only [BitVec.toNat_ofNat] at this
    omega

end Sys2Proof.Machine
end

