-- ==== Sys2Proof/Laws/PerInstr.lean ====
section
/-! SUPPORT. Laws stated per instruction, one lemma per constructor. Family EncodingFits: the word of an instruction
matches the instruction's row of the opcode table (30_encoding.md R95). -/

namespace Sys2Proof.Laws.EncodingFits

/-- The word of `i` matches the mask and pattern of its row. -/
def Statement (i : Instr) : Prop := i.row.fits (encode i) = true

theorem cls : Statement .cls :=
  rfl

theorem ret : Statement .ret :=
  rfl

theorem sys (nnn : Addr) : Statement (.sys nnn) :=
  fits_F000 (encNNN_family (by decide) nnn)

theorem jp (nnn : Addr) : Statement (.jp nnn) :=
  fits_F000 (encNNN_family (by decide) nnn)

theorem call (nnn : Addr) : Statement (.call nnn) :=
  fits_F000 (encNNN_family (by decide) nnn)

theorem seByte (x : Reg) (kk : Byte) : Statement (.seByte x kk) :=
  fits_F000 (encXKK_family (by decide) x kk)

theorem sneByte (x : Reg) (kk : Byte) : Statement (.sneByte x kk) :=
  fits_F000 (encXKK_family (by decide) x kk)

theorem seReg (x y : Reg) : Statement (.seReg x y) :=
  fits_F00F (hexWord_family (by decide) x.isLt y.isLt (by decide))
    (hexWord_last (by decide) x.isLt y.isLt (by decide))

theorem ldByte (x : Reg) (kk : Byte) : Statement (.ldByte x kk) :=
  fits_F000 (encXKK_family (by decide) x kk)

theorem addByte (x : Reg) (kk : Byte) : Statement (.addByte x kk) :=
  fits_F000 (encXKK_family (by decide) x kk)

theorem ldReg (x y : Reg) : Statement (.ldReg x y) :=
  fits_F00F (hexWord_family (by decide) x.isLt y.isLt (by decide))
    (hexWord_last (by decide) x.isLt y.isLt (by decide))

theorem orReg (x y : Reg) : Statement (.orReg x y) :=
  fits_F00F (hexWord_family (by decide) x.isLt y.isLt (by decide))
    (hexWord_last (by decide) x.isLt y.isLt (by decide))

theorem andReg (x y : Reg) : Statement (.andReg x y) :=
  fits_F00F (hexWord_family (by decide) x.isLt y.isLt (by decide))
    (hexWord_last (by decide) x.isLt y.isLt (by decide))

theorem xorReg (x y : Reg) : Statement (.xorReg x y) :=
  fits_F00F (hexWord_family (by decide) x.isLt y.isLt (by decide))
    (hexWord_last (by decide) x.isLt y.isLt (by decide))

theorem addReg (x y : Reg) : Statement (.addReg x y) :=
  fits_F00F (hexWord_family (by decide) x.isLt y.isLt (by decide))
    (hexWord_last (by decide) x.isLt y.isLt (by decide))

theorem sub (x y : Reg) : Statement (.sub x y) :=
  fits_F00F (hexWord_family (by decide) x.isLt y.isLt (by decide))
    (hexWord_last (by decide) x.isLt y.isLt (by decide))

theorem shr (x y : Reg) : Statement (.shr x y) :=
  fits_F00F (hexWord_family (by decide) x.isLt y.isLt (by decide))
    (hexWord_last (by decide) x.isLt y.isLt (by decide))

theorem subn (x y : Reg) : Statement (.subn x y) :=
  fits_F00F (hexWord_family (by decide) x.isLt y.isLt (by decide))
    (hexWord_last (by decide) x.isLt y.isLt (by decide))

theorem shl (x y : Reg) : Statement (.shl x y) :=
  fits_F00F (hexWord_family (by decide) x.isLt y.isLt (by decide))
    (hexWord_last (by decide) x.isLt y.isLt (by decide))

theorem sneReg (x y : Reg) : Statement (.sneReg x y) :=
  fits_F00F (hexWord_family (by decide) x.isLt y.isLt (by decide))
    (hexWord_last (by decide) x.isLt y.isLt (by decide))

theorem ldI (nnn : Addr) : Statement (.ldI nnn) :=
  fits_F000 (encNNN_family (by decide) nnn)

theorem jpV0 (nnn : Addr) : Statement (.jpV0 nnn) :=
  fits_F000 (encNNN_family (by decide) nnn)

theorem rnd (x : Reg) (kk : Byte) : Statement (.rnd x kk) :=
  fits_F000 (encXKK_family (by decide) x kk)

theorem drw (x y : Reg) (n : Fin 16) : Statement (.drw x y n) :=
  fits_F000 (hexWord_family (by decide) x.isLt y.isLt n.isLt)

theorem skp (x : Reg) : Statement (.skp x) :=
  fits_F0FF (hexWord_family (by decide) x.isLt (by decide) (by decide))
    (hexWord_low (by decide) x.isLt (by decide) (by decide))

theorem sknp (x : Reg) : Statement (.sknp x) :=
  fits_F0FF (hexWord_family (by decide) x.isLt (by decide) (by decide))
    (hexWord_low (by decide) x.isLt (by decide) (by decide))

theorem ldVxDt (x : Reg) : Statement (.ldVxDt x) :=
  fits_F0FF (hexWord_family (by decide) x.isLt (by decide) (by decide))
    (hexWord_low (by decide) x.isLt (by decide) (by decide))

theorem ldVxK (x : Reg) : Statement (.ldVxK x) :=
  fits_F0FF (hexWord_family (by decide) x.isLt (by decide) (by decide))
    (hexWord_low (by decide) x.isLt (by decide) (by decide))

theorem ldDtVx (x : Reg) : Statement (.ldDtVx x) :=
  fits_F0FF (hexWord_family (by decide) x.isLt (by decide) (by decide))
    (hexWord_low (by decide) x.isLt (by decide) (by decide))

theorem ldStVx (x : Reg) : Statement (.ldStVx x) :=
  fits_F0FF (hexWord_family (by decide) x.isLt (by decide) (by decide))
    (hexWord_low (by decide) x.isLt (by decide) (by decide))

theorem addI (x : Reg) : Statement (.addI x) :=
  fits_F0FF (hexWord_family (by decide) x.isLt (by decide) (by decide))
    (hexWord_low (by decide) x.isLt (by decide) (by decide))

theorem ldF (x : Reg) : Statement (.ldF x) :=
  fits_F0FF (hexWord_family (by decide) x.isLt (by decide) (by decide))
    (hexWord_low (by decide) x.isLt (by decide) (by decide))

theorem ldB (x : Reg) : Statement (.ldB x) :=
  fits_F0FF (hexWord_family (by decide) x.isLt (by decide) (by decide))
    (hexWord_low (by decide) x.isLt (by decide) (by decide))

theorem storeRegs (x : Reg) : Statement (.storeRegs x) :=
  fits_F0FF (hexWord_family (by decide) x.isLt (by decide) (by decide))
    (hexWord_low (by decide) x.isLt (by decide) (by decide))

theorem loadRegs (x : Reg) : Statement (.loadRegs x) :=
  fits_F0FF (hexWord_family (by decide) x.isLt (by decide) (by decide))
    (hexWord_low (by decide) x.isLt (by decide) (by decide))

end Sys2Proof.Laws.EncodingFits
end

