-- ==== Sys2Proof/Laws/Step.lean ====
section
/-! SUPPORT. What a step can do, said once: exec answers a next state, the cases of a dispatcher step, the cases of an event,
a run of ticks (40_dispatch.md R130, 10_state.md R42, 60_exceptions.md R320). -/

namespace Sys2Proof.Machine

/-- Two answers of the same meaning are the same state. -/
theorem next_inj {a b : State} (h : (Host.Outcome.next a : Host.Outcome State Fault Refusal) = .next b) : a = b :=
  Host.Outcome.next.inj h

/-- CALL, by its two cases (R191). -/
theorem execCall_cases {nnn : Addr} {s t : State} (h : execCall nnn s = .next t) :
    (s.sp.val = 16 ∧ t = s.setMode (.halted .stackOverflow)) ∨
      (s.sp.val < 16 ∧ t = (s.push s.pc).setPc (zextAddr nnn)) := by
  unfold execCall at h
  split at h
  · exact .inl ⟨‹_›, (next_inj h).symm⟩
  · have := s.sp.isLt; exact .inr ⟨by omega, (next_inj h).symm⟩

/-- RET, by its two cases (R192). -/
theorem execRet_cases {s t : State} (h : execRet s = .next t) :
    (s.sp.val = 0 ∧ t = s.setMode (.halted .stackUnderflow)) ∨
      (0 < s.sp.val ∧ t = s.drop.setPc (s.top + 2#16)) := by
  unfold execRet at h
  split at h
  · exact .inl ⟨‹_›, (next_inj h).symm⟩
  · exact .inr ⟨by omega, (next_inj h).symm⟩

/-- The cases of a dispatcher step (R130, R131). -/
theorem dispatcherStep_cases {s t : State} (h : dispatcherStep s = .next t) :
    (∃ c, s.mode = .halted c ∧ t = s.clearOutputs) ∨
    (∃ r, s.mode = .waitingForKey r ∧ t = waitPoll r s.clearOutputs.start) ∨
    (∃ c, s.mode = .running ∧ fetchError s.pc = some c ∧ t = s.clearOutputs.start.setMode (.halted c)) ∨
    (∃ i, s.mode = .running ∧ fetchError s.pc = none ∧ decode s.fetchWord = .instr i ∧
      exec i s.clearOutputs.start = .next t) ∨
    (∃ op, s.mode = .running ∧ fetchError s.pc = none ∧ decode s.fetchWord = .unknown op ∧
      t = (s.clearOutputs.start.emitUnknown op).seq) := by
  unfold dispatcherStep at h
  split at h
  · exact .inl ⟨_, ‹_›, (next_inj h).symm⟩
  · exact .inr (.inl ⟨_, ‹_›, (next_inj h).symm⟩)
  · rename_i hm
    have hw : s.clearOutputs.start.fetchWord = s.fetchWord := rfl
    unfold fetchExecute at h
    rw [hw] at h
    split at h
    · exact .inr (.inr (.inl ⟨_, hm, ‹_›, (next_inj h).symm⟩))
    · rename_i hf
      split at h
      · exact .inr (.inr (.inr (.inl ⟨_, hm, hf, ‹_›, h⟩)))
      · exact .inr (.inr (.inr (.inr ⟨_, hm, hf, ‹_›, (next_inj h).symm⟩)))

/-- A Running step on a fetchable PC runs the decoded instruction, outputs cleared (R131, R139). -/
theorem dispatcherStep_instr {s : State} {i : Instr} (hm : s.mode = .running) (hf : fetchError s.pc = none)
    (hd : decode s.fetchWord = .instr i) : dispatcherStep s = exec i s.clearOutputs.start := by
  have hw : s.clearOutputs.start.fetchWord = s.fetchWord := rfl
  simp only [dispatcherStep, hm, fetchExecute, State.start_pc, State.clearOutputs_pc, hf, hw, hd]

/-- The fetch check passes exactly the even PCs up to 0xFFE (20_memory.md R65). -/
theorem fetchError_none {a : Word} : fetchError a = none ↔ a.toNat ≤ 0xFFE ∧ a.toNat % 2 = 0 := by
  unfold fetchError
  split
  · simp; omega
  · split
    · simp; omega
    · simp; omega

/-- The wait poll, by its two cases (45_timers_keys.md R276). -/
theorem waitPoll_cases (t : Reg) (s : State) :
    (lowestKey s.risingKeys = none ∧ waitPoll t s = s.latchKeys) ∨
      (∃ k, lowestKey s.risingKeys = some k ∧
        waitPoll t s = ((s.latchKeys.setReg t (BitVec.ofNat 8 k)).seq).setMode .running) := by
  unfold waitPoll
  split
  · exact .inr ⟨_, ‹_›, rfl⟩
  · exact .inl ⟨‹_›, rfl⟩

/-- The lowest key: it is set, below 16, and no lower key is set (R276, D22). -/
theorem lowestKey_some {e : BitVec 16} {k : Nat} (h : lowestKey e = some k) :
    k < 16 ∧ e.getLsbD k = true ∧ ∀ j < k, e.getLsbD j = false := by
  unfold lowestKey at h
  obtain ⟨hk, as, bs, hl, hno⟩ := List.find?_eq_some_iff_append.mp h
  have hget : ∀ j < 16, (List.range 16)[j]? = some j := fun j hj => by simp [hj]
  have hlen : k = as.length ∧ as.length < 16 := by
    have hlt : as.length < 16 := by
      have := congrArg List.length hl
      simp at this
      omega
    have := hget as.length hlt
    rw [hl] at this
    simp at this
    exact ⟨this, hlt⟩
  refine ⟨by omega, hk, fun j hj => ?_⟩
  have hj' : j < as.length := by omega
  have := hget j (by omega)
  rw [hl, List.getElem?_append_left hj', List.getElem?_eq_getElem hj'] at this
  have hm : j ∈ as := (Option.some.inj this) ▸ List.getElem_mem hj'
  simpa using hno j hm

/-- No key rose. -/
theorem lowestKey_none {e : BitVec 16} : lowestKey e = none ↔ e = 0#16 := by
  unfold lowestKey
  rw [List.find?_eq_none]
  constructor
  · intro h
    apply BitVec.eq_of_getLsbD_eq
    intro k hk
    simpa using h k (by simpa using hk)
  · rintro rfl k -
    simp

/-- The cases of an event other than the dispatcher step (10_state.md R42). -/
theorem applyEvent_cases {e : HostEvent} {s t : State} (h : applyEvent e s = .next t) :
    (e = .step ∧ dispatcherStep s = .next t) ∨ (e = .tick ∧ t = tick s) ∨ (∃ k, e = .keyWrite k ∧ t = keyWrite k s) ∨
    (e = .hostRead ∧ t = hostRead s) ∨
    (∃ a b, e = .load a b ∧ s.started = false ∧ t = s.clearOutputs.writeMem a b) ∨
    (∃ bs, e = .loadRom (some bs) ∧ s.started = false ∧ bs.length ≤ Config.romMax ∧
      t = s.clearOutputs.setMem (writeImage Config.romBase bs s.mem)) ∨
    (e = .rst ∧ t = rst s) := by
  cases e with
  | step => exact .inl ⟨rfl, h⟩
  | tick => exact .inr (.inl ⟨rfl, (next_inj h).symm⟩)
  | keyWrite k => exact .inr (.inr (.inl ⟨k, rfl, (next_inj h).symm⟩))
  | hostRead => exact .inr (.inr (.inr (.inl ⟨rfl, (next_inj h).symm⟩)))
  | load a b =>
    simp only [applyEvent, load] at h
    split at h
    · cases h
    · rename_i hs
      exact .inr (.inr (.inr (.inr (.inl ⟨a, b, rfl, by simpa using hs, (next_inj h).symm⟩))))
  | loadRom image =>
    simp only [applyEvent, loadRom] at h
    split at h
    · cases h
    · rename_i hs
      split at h
      · cases h
      · rename_i bs
        split at h
        · cases h
        · exact .inr (.inr (.inr (.inr (.inr (.inl ⟨bs, rfl, by simpa using hs, by omega, (next_inj h).symm⟩)))))
  | rst => exact .inr (.inr (.inr (.inr (.inr (.inr ⟨rfl, (next_inj h).symm⟩)))))

/-- A tick, by its two cases (60_exceptions.md R320, R322). -/
theorem tick_cases (s : State) :
    ((∃ c, s.mode = .halted c) ∧ tick s = s.clearOutputs) ∨
      ((∀ c, s.mode ≠ .halted c) ∧ tick s = (s.clearOutputs.setDt (countDown s.dt)).setSt (countDown s.st)) := by
  unfold tick
  split
  · exact .inl ⟨⟨_, ‹_›⟩, rfl⟩
  · rename_i h; exact .inr ⟨by simp [h], rfl⟩
  · rename_i h; exact .inr ⟨by simp [h], rfl⟩

/-- A counter goes down by one and never below 0 (60_exceptions.md R320). -/
theorem countDown_toNat (b : Byte) : (countDown b).toNat = b.toNat - 1 := by
  unfold countDown
  have := b.isLt
  split
  · rw [BitVec.toNat_sub]; simp; omega
  · omega

/-- `n` ticks of a machine that is not Halted: each counter is `n` lower, or 0 (60_exceptions.md R320). -/
theorem runEvents_ticks {s : State} (h : ∀ c, s.mode ≠ .halted c) (n : Nat) :
    ∃ u, runEvents (List.replicate n .tick) s = .next u ∧ u.dt.toNat = s.dt.toNat - n ∧ u.st.toNat = s.st.toNat - n ∧
      u.mode = s.mode := by
  induction n generalizing s with
  | zero => exact ⟨s, rfl, rfl, rfl, rfl⟩
  | succ n ih =>
    obtain ⟨⟨c, hc⟩, -⟩ | ⟨-, ht⟩ := tick_cases s
    · exact absurd hc (h c)
    · have hm : (tick s).mode = s.mode := by rw [ht]; rfl
      have hd : (tick s).dt = countDown s.dt := by rw [ht]; rfl
      have hs : (tick s).st = countDown s.st := by rw [ht]; rfl
      obtain ⟨u, hu, hud, hus, hum⟩ := ih (s := tick s) (by rw [hm]; exact h)
      rw [hd, countDown_toNat] at hud
      rw [hs, countDown_toNat] at hus
      exact ⟨u, hu, by omega, by omega, hum.trans hm⟩

/-- The two addresses a fetch reads, by their numbers. -/
theorem pcAddr_eq {pc : Word} {k : Nat} {a : Addr} (h : a.toNat = pc.toNat + k) : pcAddr pc k = a := by
  apply BitVec.eq_of_toNat_eq
  have := a.isLt
  simp only [pcAddr, BitVec.toNat_ofNat]
  omega

/-- Every instruction answers a next state: none stops. -/
theorem exec_next (i : Instr) (s : State) : ∃ t, exec i s = .next t := by
  cases i <;> first
    | exact ⟨_, rfl⟩
    | (simp only [exec, execCall]; split <;> exact ⟨_, rfl⟩)
    | (simp only [exec, execRet]; split <;> exact ⟨_, rfl⟩)

end Sys2Proof.Machine
end

