-- ==== Sys2Proof/Tests/Slice0.lean ====
section
/-! SUPPORT. The model's own tests: the well-formedness check, the decoding of a word of every constructor written out in
bits from 30_encoding.md R94, single steps from the vectors of 95_test_vectors.md (their ids stand in the comments), and a
witness for the hypotheses of each statement. -/

namespace Sys2Proof.Tests

open Sys2Proof Sys2Proof.Machine Host

/-! ### Well-formedness -/

theorem test_wf_refuses_sys_cls : Instr.wf (.sys 0x0E0) = false := by decide
theorem test_wf_refuses_sys_ret : Instr.wf (.sys 0x0EE) = false := by decide
theorem test_wf_accepts_near_words : Instr.wf (.sys 0x1E0) = true ∧ Instr.wf (.sys 0xFEE) = true := by decide

/-! ### Decoding: every constructor, its word in bits (family, x, y or kk, n), from R94 -/

theorem test_decode_family0 : decode 0b0000_0000_1110_0000 = .instr .cls ∧ decode 0b0000_0000_1110_1110 = .instr .ret ∧
    decode 0b0000_0001_0010_0011 = .instr (.sys 0x123) ∧ decode 0b0000_0001_1110_0000 = .instr (.sys 0x1E0) ∧
    decode 0b0000_1111_1110_1110 = .instr (.sys 0xFEE) ∧ decode 0 = .instr (.sys 0) := by decide
theorem test_decode_jumps : decode 0b0001_0010_0000_0100 = .instr (.jp 0x204) ∧
    decode 0b0010_0010_0001_0000 = .instr (.call 0x210) ∧ decode 0b1011_0011_0000_0000 = .instr (.jpV0 0x300) := by decide
theorem test_decode_skips : decode 0b0011_0001_1010_0101 = .instr (.seByte 1 0xA5) ∧
    decode 0b0100_0010_0000_0111 = .instr (.sneByte 2 7) ∧ decode 0b0101_0011_1100_0000 = .instr (.seReg 3 12) ∧
    decode 0b1001_1100_0011_0000 = .instr (.sneReg 12 3) := by decide
theorem test_decode_byte_forms : decode 0b0110_0101_0100_0010 = .instr (.ldByte 5 0x42) ∧
    decode 0b0111_1111_0000_0001 = .instr (.addByte 15 1) ∧ decode 0b1100_0000_0000_1111 = .instr (.rnd 0 0x0F) := by decide
theorem test_decode_family8_low : decode 0b1000_0010_0011_0000 = .instr (.ldReg 2 3) ∧
    decode 0b1000_0010_0011_0001 = .instr (.orReg 2 3) ∧ decode 0b1000_0010_0011_0010 = .instr (.andReg 2 3) ∧
    decode 0b1000_0010_0011_0011 = .instr (.xorReg 2 3) ∧ decode 0b1000_0010_0011_0100 = .instr (.addReg 2 3) := by decide
theorem test_decode_family8_high : decode 0b1000_0010_0011_0101 = .instr (.sub 2 3) ∧
    decode 0b1000_0010_0011_0110 = .instr (.shr 2 3) ∧ decode 0b1000_0010_0011_0111 = .instr (.subn 2 3) ∧
    decode 0b1000_0010_0011_1110 = .instr (.shl 2 3) := by decide
theorem test_decode_index_and_draw : decode 0b1010_0011_0000_0000 = .instr (.ldI 0x300) ∧
    decode 0b1101_0001_0010_0101 = .instr (.drw 1 2 5) := by decide
theorem test_decode_familyE : decode 0b1110_0101_1001_1110 = .instr (.skp 5) ∧
    decode 0b1110_0101_1010_0001 = .instr (.sknp 5) := by decide
theorem test_decode_familyF_timers : decode 0b1111_0001_0000_0111 = .instr (.ldVxDt 1) ∧
    decode 0b1111_0010_0000_1010 = .instr (.ldVxK 2) ∧ decode 0b1111_0000_0001_0101 = .instr (.ldDtVx 0) ∧
    decode 0b1111_0010_0001_1000 = .instr (.ldStVx 2) := by decide
theorem test_decode_familyF_index : decode 0b1111_0111_0001_1110 = .instr (.addI 7) ∧
    decode 0b1111_0011_0010_1001 = .instr (.ldF 3) ∧ decode 0b1111_1010_0011_0011 = .instr (.ldB 10) ∧
    decode 0b1111_0001_0101_0101 = .instr (.storeRegs 1) ∧ decode 0b1111_0010_0110_0101 = .instr (.loadRegs 2) := by decide
/-- T-D1, T-D6 to T-D9. -/
theorem test_decode_unknown : decode 0x5121 = .unknown 0x5121 ∧ decode 0x8128 = .unknown 0x8128 ∧
    decode 0x9121 = .unknown 0x9121 ∧ decode 0xE19F = .unknown 0xE19F ∧ decode 0xF1FF = .unknown 0xF1FF := by decide
theorem test_decode_bytes : decodeBytes [0x65, 0x42, 0x00] = .instr (.ldByte 5 0x42) [0x00] ∧
    decodeBytes [0x65] = .truncated ∧ decodeTableWord 16 0xF265 = some (.loadRegs 2) ∧
    decodeTableWord 16 0x5121 = none := by decide

/-! ### Single steps -/

/-- Whether an answer is a next state that passes a check. -/
def passes (o : Outcome State Fault Refusal) (check : State → Bool) : Bool :=
  match o with
  | .next t => check t
  | .fault _ => false
  | .refused _ => false

/-- Whether one step on the word, placed at the state's PC, answers a next state that passes a check. -/
def ran (w : Nat) (s : State) (check : State → Bool) : Bool := passes (step (s.withFetchWord 16 w)) check

/-- The reset state with V1 = a, V2 = b, VF = f. -/
def withRegs (a b f : Byte) : State := ((State.reset.setReg 1 a).setReg 2 b).setReg vf f

/-- Whether V1 and VF hold the two bytes and PC is 0x202. -/
def v1vf (a f : Byte) (t : State) : Bool := t.reg 1 == a && t.reg vf == f && t.pc == 0x202#16

/-- T-D1. -/
theorem test_unknown : ran 0x5121 (State.reset.setPc 0x300)
    (fun t => t.unk == some ⟨0x5121, 0x300⟩ && t.pc == 0x302#16 && !t.fbStrobe) = true := by decide
/-- T-D2, T-D5. -/
theorem test_sys : ran 0x0FEE State.reset (fun t => t.unk == some ⟨0x0FEE, 0x200⟩ && t.pc == 0x202#16) = true := by decide
/-- T-D10. -/
theorem test_fetch_misaligned : passes (step (State.reset.setPc 0x201))
    (fun t => t.mode == .halted .pcMisaligned && t.pc == 0x201#16 && t.statusErr == 3#3) = true := by decide
/-- T-D12. -/
theorem test_fetch_out_of_range : passes (step (State.reset.setPc 0x0FFF))
    (fun t => t.mode == .halted .pcOutOfRange && t.pc == 0x0FFF#16 && t.statusErr == 4#3) = true := by decide
/-- T-D13. -/
theorem test_fetch_last_word : ran 0x6001 (State.reset.setPc 0xFFE) (fun t => t.reg 0 == 1#8 && t.pc == 0x1000#16) = true := by
  decide
/-- T-A1. -/
theorem test_ldByte : ran 0x6142 State.reset (v1vf 0x42 0) = true := by decide
/-- T-A2. -/
theorem test_addByte : ran 0x7101 (withRegs 0xFF 0 0x77) (v1vf 0x00 0x77) = true := by decide
/-- T-A4. -/
theorem test_ldReg : ran 0x8120 (withRegs 0x11 0x22 0) (v1vf 0x22 0) = true := by decide
/-- T-A5. -/
theorem test_orReg : ran 0x8121 (withRegs 0x0F 0xF0 1) (v1vf 0xFF 1) = true := by decide
/-- T-A6. -/
theorem test_andReg : ran 0x8122 (withRegs 0x3C 0x0F 1) (v1vf 0x0C 1) = true := by decide
/-- T-A7. -/
theorem test_xorReg : ran 0x8123 (withRegs 0xFF 0x0F 1) (v1vf 0xF0 1) = true := by decide
/-- T-A11. -/
theorem test_addReg : ran 0x8124 (withRegs 0xFF 0xFF 0) (v1vf 0xFE 1) = true := by decide
/-- T-A24. -/
theorem test_addReg_vf : ran 0x8F24 (withRegs 0 0x02 0xFF) (fun t => t.reg vf == 0x01#8) = true := by decide
/-- T-A13. -/
theorem test_sub_equal : ran 0x8125 (withRegs 7 7 0) (v1vf 0 1) = true := by decide
/-- T-A14. -/
theorem test_sub_borrow : ran 0x8125 (withRegs 0 1 1) (v1vf 0xFF 0) = true := by decide
/-- T-A18. -/
theorem test_shr : ran 0x8126 (withRegs 0x01 0xAA 0) (v1vf 0 1) = true := by decide
/-- T-A27. -/
theorem test_shr_vf : ran 0x8F26 (withRegs 0 0 0x03) (fun t => t.reg vf == 0x01#8) = true := by decide
/-- T-A16. -/
theorem test_subn_borrow : ran 0x8127 (withRegs 0x05 0x02 1) (v1vf 0xFD 0) = true := by decide
/-- T-A29. -/
theorem test_subn_vf : ran 0x8F27 (withRegs 0 0x10 0x01) (fun t => t.reg vf == 0x01#8) = true := by decide
/-- T-A22. -/
theorem test_shl : ran 0x812E (withRegs 0x7F 0 1) (v1vf 0xFE 0) = true := by decide
/-- T-A28. -/
theorem test_shl_vf : ran 0x8F2E (withRegs 0 0 0x40) (fun t => t.reg vf == 0x00#8) = true := by decide
/-- R161: the instruction moves on to the next draw and advances, whatever the draw. -/
theorem test_rnd : ran 0xC00F State.reset (fun t => t.pc == 0x202#16 && t.draws == 1) = true := by decide
/-- T-C1. -/
theorem test_jp : ran 0x1204 (State.reset.setPc 0x20A) (fun t => t.pc == 0x204#16) = true := by decide
/-- T-C3. -/
theorem test_call : ran 0x2210 (State.reset.setPc 0x204)
    (fun t => t.stack[0] == 0x204#16 && t.sp == 1 && t.pc == 0x210#16) = true := by decide
/-- T-C5. -/
theorem test_call_overflow : ran 0x2400 { State.reset with sp := 16, pc := 0x300 }
    (fun t => t.mode == .halted .stackOverflow && t.sp == 16 && t.pc == 0x300#16) = true := by decide
/-- T-C4. -/
theorem test_ret : ran 0x00EE (((State.reset.setPc 0x204).push 0x204).setPc 0x210)
    (fun t => t.stack[0] == 0x204#16 && t.sp == 0 && t.pc == 0x206#16) = true := by decide
/-- T-C7. -/
theorem test_ret_underflow : ran 0x00EE State.reset (fun t => t.mode == .halted .stackUnderflow && t.pc == 0x200#16) = true := by
  decide
/-- T-C9. -/
theorem test_jpV0 : ran 0xBFFF (State.reset.setReg 0 0xFF) (fun t => t.pc == 0x10FE#16) = true := by decide
/-- T-C11, T-C12. -/
theorem test_seByte : ran 0x3100 (State.reset.setPc 0x208) (fun t => t.pc == 0x20C#16) = true ∧
    ran 0x3100 ((State.reset.setPc 0x208).setReg 1 3) (fun t => t.pc == 0x20A#16) = true := by decide
/-- T-C13, T-C14. -/
theorem test_sneByte : ran 0x4207 ((State.reset.setPc 0x300).setReg 2 7) (fun t => t.pc == 0x302#16) = true ∧
    ran 0x4207 ((State.reset.setPc 0x300).setReg 2 8) (fun t => t.pc == 0x304#16) = true := by decide
/-- T-C15; R196. -/
theorem test_seReg : ran 0x5120 (withRegs 9 9 0) (fun t => t.pc == 0x204#16) = true ∧
    ran 0x5120 (withRegs 9 8 0) (fun t => t.pc == 0x202#16) = true := by decide
/-- T-C17, T-C18. -/
theorem test_sneReg : ran 0x9120 (withRegs 1 2 0) (fun t => t.pc == 0x204#16) = true ∧
    ran 0x9110 (withRegs 1 2 0) (fun t => t.pc == 0x202#16) = true := by decide
/-- T-M1. -/
theorem test_ldI : ran 0xA300 State.reset (fun t => t.i == 0x300#16 && t.pc == 0x202#16) = true := by decide
/-- T-M2, T-M3. -/
theorem test_addI : ran 0xF11E ((withRegs 2 0 0x33).setI 0x0FFF) (fun t => t.i == 0x1001#16 && t.reg vf == 0x33#8) = true ∧
    ran 0xF11E ((withRegs 1 0 0).setI 0xFFFF) (fun t => t.i == 0#16) = true := by decide
/-- T-M5. -/
theorem test_ldF : ran 0xF329 (State.reset.setReg 3 0x1A) (fun t => t.i == 0x032#16 && t.readI 0 == 0xF0#8 &&
    t.readI 2 == 0xF0#8 && t.readI 4 == 0x90#8) = true := by decide
/-- T-M10. -/
theorem test_ldB_wraps : ran 0xFA33 ((State.reset.setReg 10 255).setI 0x0FFE) (fun t => t.readMem 0xFFE == 2#8 &&
    t.readMem 0xFFF == 5#8 && t.readMem 0x000 == 5#8 && t.mem.wf) = true := by decide
/-- T-M11. -/
theorem test_storeRegs : ran 0xF155 (((State.reset.setReg 0 0xAA).setReg 1 0xBB).setI 0x400) (fun t =>
    t.readMem 0x400 == 0xAA#8 && t.readMem 0x401 == 0xBB#8 && t.readMem 0x402 == 0#8 && t.i == 0x400#16) = true := by decide
/-- T-M13, on the font bytes F0 90 90 of glyph 0 and the byte after. -/
theorem test_loadRegs : ran 0xF265 (State.reset.setReg 3 7) (fun t => t.reg 0 == 0xF0#8 && t.reg 1 == 0x90#8 &&
    t.reg 2 == 0x90#8 && t.reg 3 == 7#8 && t.i == 0#16) = true := by decide
/-- T-M15. -/
theorem test_loadRegs_wraps : ran 0xF065 ((State.reset.writeMem 0xFFF 0x77).setI 0x1FFF) (fun t => t.reg 0 == 0x77#8) = true := by
  decide
/-- T-F1, T-F3: a second draw of the glyph clears it and sets VF. -/
theorem test_cls : ran 0x00E0 { State.reset with fb := State.reset.fb.set 3 0xFF#64 }
    (fun t => !t.pixel (3, 0) && t.fbStrobe && t.pc == 0x202#16) = true := by decide
/-- R251's example and P3: glyph 0 at column 62, row 30 wraps both ways. -/
theorem test_drw_wraps : ran 0xD125 (withRegs 62 30 9) (fun t => t.pixel (30, 62) && t.pixel (30, 1) && !t.pixel (30, 2) &&
    t.pixel (31, 62) && !t.pixel (31, 63) && t.pixel (2, 0) && !t.pixel (3, 62) && t.reg vf == 0#8 && t.fbStrobe) = true := by
  decide
/-- T-F7, on the byte C0 placed at 0x300. -/
theorem test_drw_collides : ran 0xD121 (((withRegs 0 0 0).setI 0x300).writeMem 0x300 0xC0 |>.setFb (State.reset.fb.set 0 1#64))
    (fun t => !t.pixel (0, 0) && t.pixel (0, 1) && t.reg vf == 1#8) = true := by decide
/-- T-T1. -/
theorem test_ldVxDt : ran 0xF107 (State.reset.setDt 0x1E) (v1vf 0x1E 0) = true := by decide
/-- T-T2. -/
theorem test_ldDtVx : ran 0xF115 (withRegs 5 0 0) (fun t => t.dt == 5#8 && t.st == 0#8 && t.pc == 0x202#16) = true := by decide
/-- T-T3. -/
theorem test_ldStVx : ran 0xF218 (withRegs 0 0x3C 0) (fun t => t.st == 0x3C#8 && t.dt == 0#8 && t.tone) = true := by decide
/-- T-K2, T-K4. -/
theorem test_skp : ran 0xE19E (withRegs 4 0 0) (fun t => t.pc == 0x202#16) = true ∧
    ran 0xE19E { withRegs 0x14 0 0 with key := 0x0010 } (fun t => t.pc == 0x204#16) = true := by decide
/-- T-K3; R274. -/
theorem test_sknp : ran 0xE1A1 (withRegs 4 0 0) (fun t => t.pc == 0x204#16) = true ∧
    ran 0xE1A1 { withRegs 4 0 0 with key := 0x0010 } (fun t => t.pc == 0x202#16) = true := by decide
/-- T-K5, T-K7: a key held at entry is latched. -/
theorem test_ldVxK : ran 0xF20A { State.reset with key := 0x0008 } (fun t => t.mode == .waitingForKey 2 &&
    t.keyPrev == 0x0008#16 && t.pc == 0x200#16 && t.statusWaitReg == 2#4) = true := by decide
/-- T-K9, T-K8. -/
theorem test_wait_poll : passes (step { State.reset with mode := .waitingForKey 2, key := 0x0280 })
      (fun t => t.reg 2 == 7#8 && t.pc == 0x202#16 && t.mode == .running) = true ∧
    passes (step { State.reset with mode := .waitingForKey 2, key := 0x0008, keyPrev := 0x0008 })
      (fun t => t.reg 2 == 0#8 && t.pc == 0x200#16 && t.mode == .waitingForKey 2) = true := by decide
/-- T-T4, T-T5. -/
theorem test_tick : passes (step { State.reset with dt := 1, st := 2, events := [.tick, .step] })
    (fun t => t.dt == 0#8 && t.st == 1#8 && t.pc == 0x200#16 && t.events == [.step]) = true := by decide
/-- T-T6, T-T7. -/
theorem test_tick_modes : passes (step { State.reset with dt := 5, mode := .halted .stackOverflow, events := [.tick] })
      (fun t => t.dt == 5#8) = true ∧
    passes (step { State.reset with dt := 5, mode := .waitingForKey 0, events := [.tick] }) (fun t => t.dt == 4#8) = true := by
  decide
/-- R325; R350: reset takes the key array back. -/
theorem test_key_write_and_reset : passes (step { State.reset with events := [.keyWrite 0x0080] }) (fun t => t.key == 0x0080#16) = true ∧
    passes (step { State.reset with key := 0x0080, sp := 3, events := [.rst] }) (fun t => decide (t = State.reset)) = true := by
  decide
/-- R351: two bytes at 0x200; R40: a byte through the port is refused after the first step. -/
theorem test_load : passes (step { State.reset with events := [.loadRom (some [0x12, 0x00])] })
      (fun t => t.fetchWord == 0x1200#16 && t.readMem 0x202 == 0#8) = true ∧
    passes (step { State.reset with started := true, events := [.load 0x300 1] }) (fun _ => true) = false := by decide

/-! ### Assembler syntax (R98, R100) -/

/-- R100: the spec's encoding examples. -/
theorem test_asm_examples : assembleText "LD V5, 0x42".toList = some 0x6542 ∧ assembleText "ADD V0, V1".toList = some 0x8014 ∧
    assembleText "JP 0x204".toList = some 0x1204 ∧ assembleText "CALL 0x210".toList = some 0x2210 ∧
    assembleText "DRW V1, V2, 5".toList = some 0xD125 ∧ assembleText "LD B, VA".toList = some 0xFA33 ∧
    assembleText "LD V2, [I]".toList = some 0xF265 ∧ assembleText "SHL V3".toList = some 0x830E := by decide
/-- R98: numbers in decimal, sizes checked, the spelling without spaces; R95: no SYS for the word of CLS. -/
theorem test_asm_forms : assembleText "LD V5,66".toList = some 0x6542 ∧ assembleText "LD V5, 256".toList = none ∧
    assembleText "JP V0,768".toList = some 0xB300 ∧ assembleText "JP V1, 0x300".toList = none ∧
    assembleText "SYS 0x0E0".toList = none := by decide
/-- R100, written. -/
theorem test_asm_text : asmText (.ldB 0xA) = "LD B, VA".toList ∧ asmText (.jp 0x204) = "JP 0x204".toList ∧
    asmText (.drw 1 2 5) = "DRW V1, V2, 5".toList ∧ asmText .cls = "CLS".toList := by decide

/-! ### Witnesses: a state and operands that meet the hypotheses of each statement that has some -/

/-- A state about to run a word at 0x200. -/
def ready (w : Nat) : State := State.reset.withFetchWord 16 w

theorem witness_DecodeOfEncodeIsIdentity : Instr.wf (.sys 0x123) = true ∧ Instr.wf .cls = true := by decide
theorem witness_DecodedWordIsItsEncoding : decode 0x8014 = .instr (.addReg 0 1) := by decide
theorem witness_UnknownWordsAreExactlyThese : decode 0xF000 = .unknown 0xF000 ∧ (ready 0x5121).mode = .running ∧
    Fetchable (ready 0x5121).pc ∧ decode (ready 0x5121).fetchWord = .unknown (ready 0x5121).fetchWord := by decide
theorem witness_DecodePicksTheFirstMatchingRow : decode 0x00E0 = .instr .cls ∧ decode 0x8FFF = .unknown 0x8FFF := by decide
theorem witness_AssemblerReadsWhatItWrites : Instr.wf (.drw 15 15 15) = true ∧ Instr.wf (.sys 0) = true := by decide
theorem witness_FetchIsBigEndian : (State.reset.setPc 0xFFE).pc.toNat ≤ 0xFFE ∧
    (0xFFE#12 : Addr).toNat = (State.reset.setPc 0xFFE).pc.toNat ∧
    (0xFFF#12 : Addr).toNat = (State.reset.setPc 0xFFE).pc.toNat + 1 := by decide
theorem witness_StepRunsTheDecodedInstruction : (ready 0x6542).nextEvent = .step ∧ (ready 0x6542).mode = .running ∧
    Fetchable (ready 0x6542).pc ∧ decode (ready 0x6542).fetchWord = .instr (.ldByte 5 0x42) := by decide
theorem witness_UnknownOpcodeIsLoggedAndSkipped : (ready 0x5121).nextEvent = .step ∧ (ready 0x5121).mode = .running ∧
    Fetchable (ready 0x5121).pc ∧ decode (ready 0x5121).fetchWord = .unknown 0x5121 := by decide
theorem witness_StepAlwaysAnswersOutsideTheLoader : (∀ a b, State.reset.nextEvent ≠ .load a b) ∧
    (∀ image, State.reset.nextEvent ≠ .loadRom image) := ⟨fun _ _ h => (nomatch h), fun _ h => (nomatch h)⟩
theorem witness_BadPcHaltsAtFetch : State.reset.nextEvent = .step ∧ State.reset.mode = .running ∧
    ¬ Fetchable (State.reset.setPc 0xFFF).pc ∧ (State.reset.setPc 0xFFF).pc.toNat > 0xFFE ∧
    ¬ Fetchable (State.reset.setPc 0xFFD).pc ∧ (State.reset.setPc 0xFFD).pc.toNat ≤ 0xFFE := by decide
theorem witness_HaltIsPrecise : (State.reset.setPc 0x201).mode = .running ∧ ∃ t,
    dispatcherStep (State.reset.setPc 0x201) = .next t ∧ t.mode = .halted .pcMisaligned := ⟨rfl, _, rfl, rfl⟩
theorem witness_OnlyResetLeavesHalted : ∃ t, (State.reset.setMode (.halted .stackOverflow)).mode = .halted .stackOverflow ∧
    applyEvent .tick (State.reset.setMode (.halted .stackOverflow)) = .next t ∧ HostEvent.tick ≠ .rst :=
  ⟨_, rfl, rfl, by decide⟩
theorem witness_CarryIsTheUnboundedSum : (1 : Reg) ≠ vf := by decide
theorem witness_SubtractSetsNotBorrow : (1 : Reg) ≠ vf := by decide
theorem witness_ShiftsMoveOneBitIntoVf : (1 : Reg) ≠ vf := by decide
theorem witness_RandomMasksAFreeDraw : (0 : Byte) = 0#8 := by decide
theorem witness_CallPushesItsOwnAddress : ({ State.reset with sp := 16 } : State).sp.val = 16 ∧
    ({ State.reset with sp := 15 } : State).sp.val < 16 ∧ (0xFFF#12 : Addr).toNat % 2 = 1 := by decide
theorem witness_RetReturnsPastTheCall : State.reset.sp.val = 0 ∧ 0 < ({ State.reset with sp := 16 } : State).sp.val ∧
    (15 : Fin 16).val + 1 = ({ State.reset with sp := 16 } : State).sp.val ∧ Fetchable State.reset.stack[15] := by decide
theorem witness_RetFromTheLastWord : ({ State.reset with sp := 1, stack := Vector.replicate 16 0xFFE } : State).stack[0].toNat =
    0xFFE ∧ (0 : Fin 16).val + 1 = ({ State.reset with sp := 1 } : State).sp.val := by decide
theorem witness_CallThenRetComesBack : ({ State.reset with sp := 15 } : State).sp.val < 16 ∧ (14 : Fin 16).val < 15 := by
  decide
theorem witness_ByteSkipsCompare : State.reset.reg 1 = 0 ∧ State.reset.reg 1 ≠ 1 := by decide
theorem witness_RegisterSkipsCompare : (withRegs 1 1 0).reg 1 = (withRegs 1 1 0).reg 2 ∧
    (withRegs 1 2 0).reg 1 ≠ (withRegs 1 2 0).reg 2 := by decide
theorem witness_OnlyCallWritesTheStack : ∃ t, dispatcherStep (ready 0x2210) = .next t ∧
    t.stack[(0 : Fin 16).val] ≠ (ready 0x2210).stack[(0 : Fin 16).val] := ⟨_, rfl, by decide⟩
theorem witness_DumpStoresRegisters : (1 : Reg).val ≤ (1 : Reg).val := by decide
theorem witness_LoadReadsRegisters : (0 : Reg).val ≤ (0 : Reg).val ∧ (14 : Reg).val ≤ (15 : Reg).val := by decide
theorem witness_DumpThenLoadRestores : ∃ t w, exec (.storeRegs 1) (State.reset.setReg 0 9) = .next t ∧
    exec (.loadRegs 1) { t with v := State.reset.v } = .next w ∧ w.reg 0 = 9#8 := ⟨_, _, rfl, rfl, by decide⟩
/-- Both bytes of the next word by LD [I], Vx; the low byte alone by LD B, Vx, the high one left as it was. -/
theorem witness_StoredCodeIsFetched :
    (∃ t, exec (.storeRegs 1) (State.reset.setI 0x202) = .next t ∧ Fetchable t.pc ∧
      (0x202#12 : Addr).toNat = t.pc.toNat ∧ (0x203#12 : Addr).toNat = t.pc.toNat + 1 ∧
      0x202#12 = iAddr 0x202 (0 : Reg).val ∧ 0x203#12 = iAddr 0x202 (1 : Reg).val) ∧
    (∃ t, exec (.ldB 1) (State.reset.setI 0x203) = .next t ∧ Fetchable t.pc ∧
      (0x202#12 : Addr).toNat = t.pc.toNat ∧ 0x203#12 = iAddr 0x203 0 ∧
      ∀ k : Fin 3, 0x202#12 ≠ iAddr 0x203 k.val) :=
  ⟨⟨_, rfl, by decide⟩, ⟨_, rfl, by decide⟩⟩
theorem witness_OnlyStoresWriteMemory : ∃ t, dispatcherStep (ready 0xF033) = .next t ∧
    t.readMem 0x000 ≠ (ready 0xF033).readMem 0x000 := ⟨_, rfl, by decide⟩
theorem witness_CanonicalMemoriesAreEqualData : Memory.wf [(0x000, 1), (0xFFF, 2)] = true ∧
    Memory.wf [(0x200, 0)] = false ∧ Memory.wf [(0x000, 0xF0)] = false ∧ Memory.wf [(0x1000, 1)] = false := by decide
theorem witness_DrawInvertsCoveredPixels : Covers State.reset 0 0 1 (0, 3) ∧ ¬ Covers State.reset 0 0 0 (0, 3) :=
  ⟨⟨0, 3, by decide, by decide, by decide, by decide, by decide⟩, fun ⟨_, _, h, _⟩ => Nat.not_lt_zero _ h⟩
theorem witness_DrawTwiceIsAnInvolution : ∃ t w, exec (.drw 0 15 5) State.reset = .next t ∧
    (t.setReg vf 0).fb = t.fb ∧ (t.setReg vf 0).i = State.reset.i ∧ (t.setReg vf 0).reg 0 = State.reset.reg 0 ∧
    (t.setReg vf 0).reg 15 = State.reset.reg 15 ∧ (∀ k < 5, (t.setReg vf 0).readI k = State.reset.readI k) ∧
    exec (.drw 0 15 5) (t.setReg vf 0) = .next w ∧ w.reg vf = 1#8 :=
  ⟨_, _, rfl, rfl, rfl, by decide, by decide, by decide, rfl, by decide⟩
theorem witness_OnlyClsAndDrawWriteTheFramebuffer : ∃ t, applyEvent .step (ready 0xD005) = .next t ∧
    HostEvent.step ≠ .rst ∧ t.pixel (0, 0) ≠ (ready 0xD005).pixel (0, 0) := ⟨_, rfl, by decide, by decide⟩
theorem witness_OutputsDescribeTheStepJustTaken : (∃ t, dispatcherStep (ready 0x0000) = .next t ∧ t.unkEvt = true) ∧
    (∃ t, dispatcherStep (ready 0x00E0) = .next t ∧ t.fbStrobe = true) ∧
    (∃ t, applyEvent .hostRead State.reset.strobe = .next t ∧ HostEvent.hostRead ≠ .step) :=
  ⟨⟨_, rfl, by decide⟩, ⟨_, rfl, by decide⟩, ⟨_, rfl, by decide⟩⟩
theorem witness_TimerRegistersMove : (withRegs 0 1 0).reg 2 ≠ 0#8 ∧ (∀ code, (withRegs 0 1 0).mode ≠ .halted code) ∧
    0 < ((withRegs 0 1 0).reg 2).toNat ∧ ¬ 1 < ((withRegs 0 1 0).reg 2).toNat :=
  ⟨by decide, fun _ h => (nomatch h), by decide, by decide⟩
theorem witness_TickCountsDown : (∀ code, State.reset.mode ≠ .halted code) ∧ (State.reset.setDt 1).dt.toNat > 0 ∧
    State.reset.dt.toNat = 0 ∧ (State.reset.setSt 255).st.toNat > 0 ∧ State.reset.st.toNat = 0 ∧
    (State.reset.setDt 3).dt.toNat ≤ 3 := ⟨fun _ h => (nomatch h), by decide⟩
theorem witness_TicksStopOnlyWhenHalted : (State.reset.setMode (.halted .pcOutOfRange)).mode = .halted .pcOutOfRange ∧
    (State.reset.setMode (.waitingForKey 15)).mode = .waitingForKey 15 := by decide
theorem witness_KeySkipsTestTheKey : (0x0010#16).getLsbD (((withRegs 0x14 0 0).reg 1).toNat % 16) = true ∧
    State.reset.key.getLsbD (((withRegs 0x14 0 0).reg 1).toNat % 16) = false := by decide
theorem witness_WaitPollResumesOnAKeyEdge : (State.reset.setMode (.waitingForKey 2)).mode = .waitingForKey 2 ∧
    ((0x8000#16).getLsbD (15 : Fin 16).val = true ∧ (0#16).getLsbD (15 : Fin 16).val = false ∧
      ∀ j : Fin 16, j.val < 15 → ¬ ((0x8000#16).getLsbD j.val = true ∧ (0#16).getLsbD j.val = false)) ∧
    (∀ k : Fin 16, ¬ ((0x0008#16).getLsbD k.val = true ∧ (0x0008#16).getLsbD k.val = false)) := by decide
theorem witness_OnlyTheHostWritesKeys : ∃ t, applyEvent .step (ready 0xF20A) = .next t ∧
    (∀ k, HostEvent.step ≠ .keyWrite k) ∧ HostEvent.step ≠ .rst := ⟨_, rfl, fun _ h => (nomatch h), by decide⟩
theorem witness_PortsShowTheState : State.reset.mode = .running ∧
    (State.reset.setMode (.waitingForKey 15)).mode = .waitingForKey 15 ∧
    (State.reset.setMode (.halted .pcOutOfRange)).mode = .halted .pcOutOfRange := by decide
theorem witness_ResetRestoresEveryElement : (0x050#12 : Addr).toNat ≥ 0x050 ∧ (0xFFF#12 : Addr).toNat ≥ 0x050 := by decide
theorem witness_RomIsLoadedVerbatim : State.reset.started = false ∧ (List.replicate 3584 (1 : Byte)).length ≤ 3584 :=
  ⟨rfl, Nat.le_of_eq List.length_replicate⟩
theorem witness_LoaderErrors : State.reset.started = false ∧ (List.replicate 3585 (1 : Byte)).length > 3584 ∧
    State.reset.start.started = true :=
  ⟨rfl, Nat.lt_of_lt_of_eq (by decide : 3584 < 3585) List.length_replicate.symm, rfl⟩
theorem witness_StepKeepsTheInvariant : ∃ t, step State.reset = .next t ∧ StateInv State.reset :=
  ⟨_, rfl, by decide, by decide, by decide, fun _ => rfl, fun _ h => (nomatch h), fun _ h => (nomatch h)⟩
theorem witness_StepsRunTheEventsInOrder : ∃ t, runEvents [.keyWrite 1, .step, .tick]
    { ready 0x6001 with events := [.keyWrite 1, .step, .tick] } = .next t := ⟨_, rfl⟩
theorem witness_AtRestNothingElseChanges : AtRest (ready 0x1200) ∧ (∀ e ∈ [HostEvent.step, .tick], RunningEvent e) ∧
    ∃ t, runEvents [.step, .tick] (ready 0x1200) = .next t :=
  ⟨⟨rfl, by decide, by decide⟩, by simp [RunningEvent], _, rfl⟩
theorem witness_FairScheduleRunsTimersOut : AtRest (ready 0x1200) ∧
    Fair (fun n => if n % 2 = 0 then .step else .tick) ∧
    ∀ n : Nat, RunningEvent ((fun n => if n % 2 = 0 then .step else .tick) n) :=
  ⟨⟨rfl, by decide, by decide⟩,
    ⟨fun n => ⟨2 * n, by omega, by simp⟩, fun n => ⟨2 * n + 1, by omega, by simp [Nat.add_mod]⟩⟩,
    fun n => by by_cases h : n % 2 = 0 <;> simp [h, RunningEvent]⟩

end Sys2Proof.Tests
end

section
/-! The memory family (20_memory.md): instruction fetch. -/

namespace Sys2Proof.Machine

/-- The number of the fetched word: the first byte of the fetch is the most significant (20_memory.md R62). -/
theorem State.fetchWord_toNat (s : State) :
    s.fetchWord.toNat = (s.readMem (pcAddr s.pc 0)).toNat * 256 + (s.readMem (pcAddr s.pc 1)).toNat :=
  wordOfBytes_toNat _ _

/-- Settles O7: a fetch reads exactly the addresses numbered PC and PC + 1. The bound on PC is not needed on its own:
an address numbered PC + 1 exists only below it. -/
theorem fetchIsBigEndian : Obligations.FetchIsBigEndian := by
  intro s a b _ ha hb
  have hi : pcAddr s.pc 0 = a := pcAddr_eq ha
  have lo : pcAddr s.pc 1 = b := pcAddr_eq hb
  rw [State.fetchWord_toNat, hi, lo]

end Sys2Proof.Machine
end

section
/-! The words of the patterns `fxkk` and `fxy0` as 41_register_alu.md writes them, `base | x<<8 | low`: they are the
encoder's words, and their fields are the operands (30_encoding.md R91). -/

namespace Sys2Proof.Machine

/-- The three parts of `base | x<<8 | low` share no bit: the word is their sum. -/
theorem wordX_toNat {base low : Word} {f : Nat} (hbase : base.toNat = f * 4096) (x : Reg) (hlow : low.toNat < 256) :
    (wordX base x low).toNat = f * 4096 + x.val * 256 + low.toNat := by
  have hx := x.isLt
  have hxNat : (BitVec.ofNat 16 x.val <<< 8).toNat = x.val <<< 8 := by
    simp only [BitVec.toNat_shiftLeft, BitVec.toNat_ofNat, Nat.shiftLeft_eq]
    omega
  have hlt : x.val <<< 8 + low.toNat < 2 ^ 12 := by
    rw [Nat.shiftLeft_eq]; omega
  calc (wordX base x low).toNat
      = f <<< 12 ||| (x.val <<< 8 ||| low.toNat) := by
        rw [wordX, BitVec.toNat_or, BitVec.toNat_or, hxNat, hbase, Nat.or_assoc, Nat.shiftLeft_eq f]
    _ = f <<< 12 + (x.val <<< 8 + low.toNat) := by
        rw [Nat.shiftLeft_add_eq_or_of_lt hlt, Nat.shiftLeft_add_eq_or_of_lt hlow]
    _ = f * 4096 + x.val * 256 + low.toNat := by
        rw [Nat.shiftLeft_eq, Nat.shiftLeft_eq, Nat.add_assoc]

/-- The family digit of a word fits in four bits. -/
theorem family_lt {base : Word} {f : Nat} (hbase : base.toNat = f * 4096) : f < 16 := by
  have := base.isLt
  omega

theorem wordX_eq_encXKK {base : Word} {f : Nat} (hbase : base.toNat = f * 4096) (x : Reg) (kk : Byte) :
    wordX base x (kk.setWidth 16) = encXKK f x kk := by
  have hkk : (kk.setWidth 16).toNat = kk.toNat := BitVec.toNat_setWidth_of_le (by decide)
  apply BitVec.eq_of_toNat_eq
  rw [wordX_toNat hbase x (hkk ▸ kk.isLt), encXKK_toNat (family_lt hbase), hkk]

theorem wordXY_eq_hexWord {base : Word} {f : Nat} (hbase : base.toNat = f * 4096) (x y : Reg) :
    wordXY base x y = hexWord f x y 0 := by
  have hy : (BitVec.ofNat 16 y.val <<< 4).toNat = y.val * 16 := by
    simp only [BitVec.toNat_shiftLeft, BitVec.toNat_ofNat, Nat.shiftLeft_eq]
    omega
  apply BitVec.eq_of_toNat_eq
  rw [wordXY, wordX_toNat hbase x (by omega), hexWord_toNat (family_lt hbase) x.isLt y.isLt (by decide), hy, Nat.add_zero]

/-! ### The fields of the encoder's words -/

theorem opFamily_encXKK {f : Nat} (hf : f < 16) (x : Reg) (kk : Byte) : opFamily (encXKK f x kk) = f :=
  (opFamily_toNat _).trans (encXKK_family hf x kk)

theorem opX_encXKK {f : Nat} (hf : f < 16) (x : Reg) (kk : Byte) : opX (encXKK f x kk) = x := by
  apply Fin.ext
  rw [opX_val, encXKK_toNat hf]
  omega

theorem opKK_encXKK {f : Nat} (hf : f < 16) (x : Reg) (kk : Byte) : opKK (encXKK f x kk) = kk := by
  apply BitVec.eq_of_toNat_eq
  rw [opKK_toNat, encXKK_toNat hf]
  omega

theorem opFamily_hexWord {a b c d : Nat} (ha : a < 16) (hb : b < 16) (hc : c < 16) (hd : d < 16) :
    opFamily (hexWord a b c d) = a :=
  (opFamily_toNat _).trans (hexWord_family ha hb hc hd)

theorem opX_hexWord {a c d : Nat} (ha : a < 16) (x : Reg) (hc : c < 16) (hd : d < 16) : opX (hexWord a x c d) = x := by
  apply Fin.ext
  rw [opX_val, hexWord_toNat ha x.isLt hc hd]
  omega

theorem opY_hexWord {a b d : Nat} (ha : a < 16) (hb : b < 16) (y : Reg) (hd : d < 16) : opY (hexWord a b y d) = y := by
  apply Fin.ext
  rw [opY_val, hexWord_toNat ha hb y.isLt hd]
  omega

theorem opN_hexWord_val {a b c d : Nat} (ha : a < 16) (hb : b < 16) (hc : c < 16) (hd : d < 16) :
    (opN (hexWord a b c d)).val = d :=
  (opN_val _).trans (hexWord_last ha hb hc hd)

/-- The last digit 0 of family 8 is LD Vx, Vy (R94). -/
theorem decodeFamily8_n0 {op : Word} (h : (opN op).val = 0x0) :
    decodeFamily8 op = .instr (.ldReg (opX op) (opY op)) := by
  simp [decodeFamily8, h]

end Sys2Proof.Machine
end

section
/-! The register family (41_register_alu.md): loads and the flagless ADD. Each writes one register and takes the next
instruction; what that does to the state is said once. -/

namespace Sys2Proof.Machine

/-! ### Frames -/

/-- A frame holds of any larger set of written parts. -/
theorem Unchanged.mono {s t : State} {written written' : Part → Prop} (h : Unchanged s t written)
    (hsub : ∀ p, written p → written' p) : Unchanged s t written' :=
  fun p hp => h p (mt (hsub p) hp)

theorem unchanged_setPc (s : State) (a : Word) : Unchanged s (s.setPc a) (fun p => p = .pc) := by
  intro p hp
  cases p with
  | pc => exact absurd rfl hp
  | _ => rfl

theorem unchanged_setReg_setPc (s : State) (x : Reg) (b : Byte) (a : Word) :
    Unchanged s ((s.setReg x b).setPc a) (fun p => p = .v x ∨ p = .pc) := by
  intro p hp
  cases p with
  | pc => exact absurd (.inr rfl) hp
  | v r => exact State.reg_setReg_other s b fun hxr => hp (.inl (congrArg Part.v hxr.symm))
  | _ => rfl

/-- Writing a register with what it holds changes nothing. -/
theorem State.setReg_reg_self (s : State) (r : Reg) : s.setReg r (s.reg r) = s := by
  simp [State.setReg, State.reg]

/-- An instruction that writes V[x] and nothing else: its result, the PC source SEQ (40_dispatch.md R137), its frame. -/
theorem State.setReg_seq_spec (s : State) (x : Reg) (b : Byte) :
    (s.setReg x b).seq.reg x = b ∧ (s.setReg x b).seq.pc = s.pc + 2#16 ∧
      Unchanged s (s.setReg x b).seq (fun p => p = .v x ∨ p = .pc) :=
  ⟨State.reg_setReg_same s x b, rfl, unchanged_setReg_setPc s x b _⟩

/-- Copying V[y] to V[x]: with x = y the write changes nothing, so the frame is PC only. -/
theorem unchanged_copyReg_seq (s : State) (x y : Reg) :
    Unchanged s (s.setReg x (s.reg y)).seq (fun p => (p = .v x ∧ x ≠ y) ∨ p = .pc) := by
  by_cases hxy : x = y
  · subst hxy
    rw [State.setReg_reg_self]
    exact (unchanged_setPc s _).mono fun _ hp => .inr hp
  · exact (unchanged_setReg_setPc s x _ _).mono fun _ hp => hp.imp_left fun hv => ⟨hv, hxy⟩

/-! ### The words (R94) -/

theorem decode_ldByte_word (x : Reg) (kk : Byte) :
    decode (wordX 0x6000#16 x (kk.setWidth 16)) = .instr (.ldByte x kk) := by
  have hf : 0x6 < 16 := by decide
  rw [wordX_eq_encXKK (f := 0x6) rfl, decode_family6 (opFamily_encXKK hf x kk), opX_encXKK hf, opKK_encXKK hf]

theorem decode_addByte_word (x : Reg) (kk : Byte) :
    decode (wordX 0x7000#16 x (kk.setWidth 16)) = .instr (.addByte x kk) := by
  have hf : 0x7 < 16 := by decide
  rw [wordX_eq_encXKK (f := 0x7) rfl, decode_family7 (opFamily_encXKK hf x kk), opX_encXKK hf, opKK_encXKK hf]

theorem decode_ldReg_word (x y : Reg) : decode (wordXY 0x8000#16 x y) = .instr (.ldReg x y) := by
  have hf : 0x8 < 16 := by decide
  have h0 : 0x0 < 16 := by decide
  rw [wordXY_eq_hexWord (f := 0x8) rfl, decode_family8 (opFamily_hexWord hf x.isLt y.isLt h0),
    decodeFamily8_n0 (opN_hexWord_val hf x.isLt y.isLt h0), opX_hexWord hf x y.isLt h0, opY_hexWord hf x.isLt y h0]

/-! ### The obligations -/

/-- Settles O15: the byte is the value written. -/
theorem loadByteSetsRegister : Obligations.LoadByteSetsRegister :=
  fun x kk => ⟨decode_ldByte_word x kk, fun s => ⟨_, rfl, State.setReg_seq_spec s x kk⟩⟩

/-- Settles O16: the sum of two bytes is the sum of their numbers modulo 256, and V[x] is the one register written. -/
theorem addByteWrapsWithoutFlag : Obligations.AddByteWrapsWithoutFlag := by
  intro x kk
  refine ⟨decode_addByte_word x kk, fun s => ?_⟩
  obtain ⟨hreg, hpc, hframe⟩ := State.setReg_seq_spec s x (s.reg x + kk)
  exact ⟨_, rfl, (congrArg BitVec.toNat hreg).trans (BitVec.toNat_add _ _), hpc, hframe⟩

/-- Settles O17: V[y] is the value written, and writing V[x] over itself changes nothing. -/
theorem loadRegisterCopies : Obligations.LoadRegisterCopies := by
  intro x y
  refine ⟨decode_ldReg_word x y, fun s => ?_⟩
  obtain ⟨hreg, hpc, -⟩ := State.setReg_seq_spec s x (s.reg y)
  exact ⟨_, rfl, hreg, hpc, unchanged_copyReg_seq s x y⟩

end Sys2Proof.Machine
end

section
/-! The control-flow family (42_control_flow.md): CALL and RET on the call stack, and the skips on a byte. The words of the
pattern `fnnn`, the frames of the call stack, the two cases of CALL and of RET and the PC of a skip are each said once. -/

namespace Sys2Proof.Machine

/-! ### The words (R191, R192, R194, R195) -/

/-- `base | nnn` shares no bit between its two parts: it is the encoder's word. -/
theorem or_addr_eq_encNNN {base : Word} {f : Nat} (hbase : base.toNat = f * 4096) (nnn : Addr) :
    base ||| nnn.setWidth 16 = encNNN f nnn := by
  have hnnn : (nnn.setWidth 16).toNat = nnn.toNat := BitVec.toNat_setWidth_of_le (by decide)
  apply BitVec.eq_of_toNat_eq
  calc (base ||| nnn.setWidth 16).toNat
      = f <<< 12 ||| nnn.toNat := by rw [BitVec.toNat_or, hbase, hnnn, Nat.shiftLeft_eq]
    _ = f <<< 12 + nnn.toNat := (Nat.shiftLeft_add_eq_or_of_lt nnn.isLt f).symm
    _ = (encNNN f nnn).toNat := by rw [encNNN_toNat (family_lt hbase), Nat.shiftLeft_eq]

theorem opFamily_encNNN {f : Nat} (hf : f < 16) (nnn : Addr) : opFamily (encNNN f nnn) = f :=
  (opFamily_toNat _).trans (encNNN_family hf nnn)

theorem opNNN_encNNN {f : Nat} (hf : f < 16) (nnn : Addr) : opNNN (encNNN f nnn) = nnn := by
  apply BitVec.eq_of_toNat_eq
  rw [opNNN_toNat, encNNN_toNat hf]
  omega

theorem decode_call_word (nnn : Addr) : decode (0x2000#16 ||| nnn.setWidth 16) = .instr (.call nnn) := by
  have hf : 0x2 < 16 := by decide
  rw [or_addr_eq_encNNN (f := 0x2) rfl, decode_family2 (opFamily_encNNN hf nnn), opNNN_encNNN hf]

theorem decode_seByte_word (x : Reg) (kk : Byte) :
    decode (wordX 0x3000#16 x (kk.setWidth 16)) = .instr (.seByte x kk) := by
  have hf : 0x3 < 16 := by decide
  rw [wordX_eq_encXKK (f := 0x3) rfl, decode_family3 (opFamily_encXKK hf x kk), opX_encXKK hf, opKK_encXKK hf]

theorem decode_sneByte_word (x : Reg) (kk : Byte) :
    decode (wordX 0x4000#16 x (kk.setWidth 16)) = .instr (.sneByte x kk) := by
  have hf : 0x4 < 16 := by decide
  rw [wordX_eq_encXKK (f := 0x4) rfl, decode_family4 (opFamily_encXKK hf x kk), opX_encXKK hf, opKK_encXKK hf]

/-! ### Frames -/

/-- What two changes in turn leave alone, both leave alone. -/
theorem Unchanged.trans {s t u : State} {written : Part → Prop} (hst : Unchanged s t written)
    (htu : Unchanged t u written) : Unchanged s u written := by
  intro p hp
  have hst := hst p hp
  have htu := htu p hp
  cases p <;> exact htu.trans hst

/-- A halt changes MODE only (60_exceptions.md R302). -/
theorem unchanged_setMode (s : State) (m : Mode) : Unchanged s (s.setMode m) (fun p => p = .mode) := by
  intro p hp
  cases p with
  | mode => exact absurd rfl hp
  | _ => rfl

/-- `push` writes the slot at SP, and SP (R198). -/
theorem unchanged_push (s : State) (w : Word) (h : s.sp.val < 16) :
    Unchanged s (s.push w) (fun p => p = .stack ⟨s.sp.val, h⟩ ∨ p = .sp) := by
  obtain ⟨-, hslot⟩ := State.push_spec s w h
  intro p hp
  cases p with
  | sp => exact absurd (.inr rfl) hp
  | stack j => exact (hslot j).trans (if_neg fun hj => hp (.inl (congrArg Part.stack (Fin.ext hj.symm))))
  | _ => simp [Part.same]

/-- `pop` writes SP and no slot (R199). -/
theorem unchanged_drop (s : State) : Unchanged s s.drop (fun p => p = .sp) := by
  intro p hp
  cases p with
  | sp => exact absurd rfl hp
  | _ => rfl

/-- After the frame of the call stack, a write of PC adds PC to it. -/
theorem Unchanged.setPc {s t : State} {written : Part → Prop} (h : Unchanged s t written) (a : Word) :
    Unchanged s (t.setPc a) (fun p => written p ∨ p = .pc) :=
  (h.mono fun _ => .inl).trans ((unchanged_setPc t a).mono fun _ => .inr)

/-! ### The fetch check of a target (20_memory.md R65, 42_control_flow.md R202) -/

theorem fetchError_of_odd {a : Word} (h : a.toNat % 2 = 1) : ∃ code, fetchError a = some code := by
  apply Option.ne_none_iff_exists'.mp
  intro hnone
  obtain ⟨-, heven⟩ := fetchError_none.mp hnone
  omega

theorem fetchError_of_gt {a : Word} (h : 0xFFE < a.toNat) : fetchError a = some .pcOutOfRange :=
  if_pos h

/-! ### CALL and RET, case by case (R191, R192) -/

theorem zextAddr_toNat (nnn : Addr) : (zextAddr nnn).toNat = nnn.toNat :=
  BitVec.toNat_setWidth_of_le (by decide)

theorem exec_call_full {nnn : Addr} {s : State} (h : s.sp.val = 16) :
    exec (.call nnn) s = .next (s.setMode (.halted .stackOverflow)) :=
  if_pos h

theorem exec_call_push {nnn : Addr} {s : State} (h : s.sp.val < 16) :
    exec (.call nnn) s = .next ((s.push s.pc).setPc (zextAddr nnn)) :=
  if_neg (Nat.ne_of_lt h)

theorem exec_ret_empty {s : State} (h : s.sp.val = 0) :
    exec .ret s = .next (s.setMode (.halted .stackUnderflow)) :=
  if_pos h

theorem exec_ret_pop {s : State} (h : 0 < s.sp.val) :
    exec .ret s = .next (s.drop.setPc (s.top + 2#16)) :=
  if_neg (Nat.ne_of_gt h)

/-- The slot that `pop` returns, by its number. -/
theorem State.top_eq_slot {s : State} {j : Fin 16} (h : j.val + 1 = s.sp.val) : s.top = s.stack[j.val] := by
  simp only [State.top, ← h, Nat.add_sub_cancel]

/-- The address after a popped one (R192): even and at most 0x1000 after a fetchable address, refused by the fetch check
after the last word of memory. -/
theorem returnAddress_spec (a : Word) :
    (a + 2#16).toNat = (a.toNat + 2) % 65536 ∧
      (Fetchable a → (a + 2#16).toNat % 2 = 0 ∧ (a + 2#16).toNat ≤ 0x1000) ∧
      (a.toNat = 0xFFE → fetchError (a + 2#16) = some .pcOutOfRange) := by
  have hsum : (a + 2#16).toNat = (a.toNat + 2) % 65536 := BitVec.toNat_add a 2#16
  refine ⟨hsum, ?_, fun hlast => fetchError_of_gt (by omega)⟩
  rintro ⟨hle, heven⟩
  omega

/-! ### Skips (40_dispatch.md R137, 42_control_flow.md R200) -/

/-- A skip writes PC only: PC + 4 when its condition holds, else PC + 2. -/
theorem State.skipIf_spec (s : State) (cond : Bool) :
    (cond = true → (s.skipIf cond).pc = s.pc + 4#16) ∧ (cond = false → (s.skipIf cond).pc = s.pc + 2#16) ∧
      Unchanged s (s.skipIf cond) (fun p => p = .pc) := by
  rw [State.skipIf_eq]
  refine ⟨?_, ?_, unchanged_setPc s _⟩
  · rintro rfl; rfl
  · rintro rfl; rfl

/-! ### The obligations -/

/-- Settles O24: a full stack halts with MODE the only write; otherwise CALL pushes its own PC and sets PC to its operand,
whose oddness is left to the next fetch. -/
theorem callPushesItsOwnAddress : Obligations.CallPushesItsOwnAddress := by
  intro nnn
  refine ⟨decode_call_word nnn, fun s => ⟨fun hfull => ?_, fun hroom => ?_⟩⟩
  · exact ⟨_, exec_call_full hfull, rfl, unchanged_setMode s _⟩
  · obtain ⟨hsp, hslot⟩ := State.push_spec s s.pc hroom
    have htarget := zextAddr_toNat nnn
    exact ⟨_, exec_call_push hroom, (hslot ⟨s.sp.val, hroom⟩).trans (if_pos rfl), hsp, htarget,
      fun hodd => fetchError_of_odd (htarget ▸ hodd),
      ((unchanged_push s s.pc hroom).setPc _).mono fun _ => or_assoc.mp⟩

/-- Settles O25: an empty stack halts with MODE the only write; otherwise RET goes to the popped slot's address plus 2 and
writes no slot. -/
theorem retReturnsPastTheCall : Obligations.RetReturnsPastTheCall := by
  refine ⟨rfl, fun s => ⟨fun hempty => ?_, fun hpos => ?_⟩⟩
  · exact ⟨_, exec_ret_empty hempty, rfl, unchanged_setMode s _⟩
  · refine ⟨_, exec_ret_pop hpos, Nat.sub_add_cancel hpos, fun j hj => ?_, (unchanged_drop s).setPc _⟩
    rw [State.top_eq_slot hj]
    exact returnAddress_spec s.stack[j.val]

/-- Settles O27: both are skips, on the equality of V[x] with the byte and on its negation. -/
theorem byteSkipsCompare : Obligations.ByteSkipsCompare := by
  intro x kk
  refine ⟨decode_seByte_word x kk, decode_sneByte_word x kk, fun s => ⟨?_, ?_⟩⟩
  · obtain ⟨hskip, hseq, hframe⟩ := s.skipIf_spec (s.reg x == kk)
    exact ⟨_, rfl, fun heq => hskip (beq_iff_eq.mpr heq), fun hne => hseq (beq_eq_false_iff_ne.mpr hne), hframe⟩
  · obtain ⟨hskip, hseq, hframe⟩ := s.skipIf_spec (s.reg x != kk)
    exact ⟨_, rfl, fun hne => hskip (bne_iff_ne.mpr hne), fun heq => hseq (bne_eq_false_iff_eq.mpr heq), hframe⟩

end Sys2Proof.Machine
end

section
/-! The index register family (43_index_memory.md): an instruction that writes I and takes the next instruction, and
LD I, addr. -/

namespace Sys2Proof.Machine

/-! ### The word (R220) -/

theorem decode_ldI_word (nnn : Addr) : decode (0xA000#16 ||| nnn.setWidth 16) = .instr (.ldI nnn) := by
  have hf : 0xA < 16 := by decide
  rw [or_addr_eq_encNNN (f := 0xA) rfl, decode_familyA (opFamily_encNNN hf nnn), opNNN_encNNN hf]

/-! ### Frames -/

theorem unchanged_setI (s : State) (w : Word) : Unchanged s (s.setI w) (fun p => p = .i) := by
  intro p hp
  cases p with
  | i => exact absurd rfl hp
  | _ => rfl

/-- An instruction that writes I and nothing else: its result, the PC source SEQ (40_dispatch.md R137), its frame. -/
theorem State.setI_seq_spec (s : State) (w : Word) :
    (s.setI w).seq.i = w ∧ (s.setI w).seq.pc = s.pc + 2#16 ∧
      Unchanged s (s.setI w).seq (fun p => p = .i ∨ p = .pc) :=
  ⟨rfl, rfl, (unchanged_setI s w).setPc _⟩

/-! ### The obligations -/

/-- Settles O30: I is the zero-extended operand, whose twelve bits bound it by 0xFFF. -/
theorem loadIndexSetsI : Obligations.LoadIndexSetsI := by
  intro nnn
  refine ⟨decode_ldI_word nnn, fun s => ?_⟩
  obtain ⟨hi, hpc, hframe⟩ := s.setI_seq_spec (zextAddr nnn)
  have hvalue : (s.setI (zextAddr nnn)).seq.i.toNat = nnn.toNat := hi ▸ zextAddr_toNat nnn
  have hbound : nnn.toNat ≤ 0xFFF := Nat.le_of_lt_succ nnn.isLt
  exact ⟨_, rfl, hvalue, hvalue ▸ hbound, hpc, hframe⟩

end Sys2Proof.Machine
end

section
/-! The display family (44_display.md): an instruction that replaces the framebuffer, asserts the strobe and takes the next
instruction, and CLS. -/

namespace Sys2Proof.Machine

/-! ### Frames -/

/-- Replacing the framebuffer writes pixels only. -/
theorem unchanged_setFb (s : State) (fb : Framebuffer) : Unchanged s (s.setFb fb) (fun p => ∃ q, p = .pixel q) := by
  intro p hp
  cases p with
  | pixel q => exact absurd ⟨q, rfl⟩ hp
  | _ => rfl

/-- `strobe FB` asserts the step output and writes nothing else (40_dispatch.md R138). -/
theorem unchanged_strobe (s : State) : Unchanged s s.strobe (fun p => p = .fbStrobe) := by
  intro p hp
  cases p with
  | fbStrobe => exact absurd rfl hp
  | _ => rfl

theorem unchanged_setFb_strobe (s : State) (fb : Framebuffer) :
    Unchanged s (s.setFb fb).strobe (fun p => (∃ q, p = .pixel q) ∨ p = .fbStrobe) :=
  ((unchanged_setFb s fb).mono fun _ => .inl).trans ((unchanged_strobe _).mono fun _ => .inr)

/-- An instruction that replaces the framebuffer and writes no register: its pixels, the strobe, the PC source SEQ
(40_dispatch.md R137), its frame. -/
theorem State.setFb_strobe_seq_spec (s : State) (fb : Framebuffer) :
    (∀ p, (s.setFb fb).strobe.seq.pixel p = Framebuffer.get fb p) ∧ (s.setFb fb).strobe.seq.fbStrobe = true ∧
      (s.setFb fb).strobe.seq.pc = s.pc + 2#16 ∧
      Unchanged s (s.setFb fb).strobe.seq (fun p => (∃ q, p = .pixel q) ∨ p = .fbStrobe ∨ p = .pc) :=
  ⟨fun _ => rfl, rfl, rfl, ((unchanged_setFb_strobe s fb).setPc _).mono fun _ => or_assoc.mp⟩

/-! ### The obligations -/

/-- Settles O39: the framebuffer that CLS puts in place has no pixel on. -/
theorem clsClearsTheFramebuffer : Obligations.ClsClearsTheFramebuffer := by
  refine ⟨rfl, fun s => ?_⟩
  obtain ⟨hpixel, hstrobe, hpc, hframe⟩ := s.setFb_strobe_seq_spec Framebuffer.clear
  exact ⟨_, rfl, fun p => (hpixel p).trans (Framebuffer.get_clear p), hstrobe, hpc, hframe⟩

end Sys2Proof.Machine
end

section
/-! The timer family (45_timers_keys.md): the instructions that move a value between V[x] and a timer, and how long the
tone lasts that LD ST, Vx turns on. -/

namespace Sys2Proof.Machine

/-! ### The words (R270, R271, R272) -/

/-- A low part written into the base is the low part of the pattern `base | x<<8 | low`. -/
theorem wordX_base_or_low (base low : Word) (x : Reg) : wordX (base ||| low) x 0#16 = wordX base x low := by
  simp only [wordX, BitVec.or_zero, BitVec.or_assoc, BitVec.or_comm low]

theorem decodeFamilyF_kk07 {op : Word} (h : opKK op = 0x07#8) : decodeFamilyF op = .instr (.ldVxDt (opX op)) := by
  simp [decodeFamilyF, h]

theorem decodeFamilyF_kk15 {op : Word} (h : opKK op = 0x15#8) : decodeFamilyF op = .instr (.ldDtVx (opX op)) := by
  simp [decodeFamilyF, h]

theorem decodeFamilyF_kk18 {op : Word} (h : opKK op = 0x18#8) : decodeFamilyF op = .instr (.ldStVx (opX op)) := by
  simp [decodeFamilyF, h]

/-- A low byte that names the instruction `i` in family F (R93) makes `0xF000 | x<<8 | kk` the word of `i x`. -/
theorem decode_familyF_word {i : Reg → Instr} {kk : Byte}
    (h : ∀ {op : Word}, opKK op = kk → decodeFamilyF op = .instr (i (opX op))) (x : Reg) :
    decode (wordX (0xF000#16 ||| kk.setWidth 16) x 0#16) = .instr (i x) := by
  have hf : 0xF < 16 := by decide
  rw [wordX_base_or_low, wordX_eq_encXKK (f := 0xF) rfl, decode_familyF (opFamily_encXKK hf x kk),
    h (opKK_encXKK hf x kk), opX_encXKK hf]

theorem decode_ldVxDt_word (x : Reg) : decode (wordX 0xF007#16 x 0#16) = .instr (.ldVxDt x) :=
  decode_familyF_word decodeFamilyF_kk07 x

theorem decode_ldDtVx_word (x : Reg) : decode (wordX 0xF015#16 x 0#16) = .instr (.ldDtVx x) :=
  decode_familyF_word decodeFamilyF_kk15 x

theorem decode_ldStVx_word (x : Reg) : decode (wordX 0xF018#16 x 0#16) = .instr (.ldStVx x) :=
  decode_familyF_word decodeFamilyF_kk18 x

/-! ### Frames -/

theorem unchanged_setDt (s : State) (b : Byte) : Unchanged s (s.setDt b) (fun p => p = .dt) := by
  intro p hp
  cases p with
  | dt => exact absurd rfl hp
  | _ => rfl

theorem unchanged_setSt (s : State) (b : Byte) : Unchanged s (s.setSt b) (fun p => p = .st) := by
  intro p hp
  cases p with
  | st => exact absurd rfl hp
  | _ => rfl

/-- An instruction that writes DT and nothing else: its result, the PC source SEQ (40_dispatch.md R137), its frame. -/
theorem State.setDt_seq_spec (s : State) (b : Byte) :
    (s.setDt b).seq.dt = b ∧ (s.setDt b).seq.pc = s.pc + 2#16 ∧
      Unchanged s (s.setDt b).seq (fun p => p = .dt ∨ p = .pc) :=
  ⟨rfl, rfl, (unchanged_setDt s b).setPc _⟩

/-- An instruction that writes ST and nothing else: its result, the PC source SEQ (40_dispatch.md R137), its frame. -/
theorem State.setSt_seq_spec (s : State) (b : Byte) :
    (s.setSt b).seq.st = b ∧ (s.setSt b).seq.pc = s.pc + 2#16 ∧
      Unchanged s (s.setSt b).seq (fun p => p = .st ∨ p = .pc) :=
  ⟨rfl, rfl, (unchanged_setSt s b).setPc _⟩

/-! ### The tone (60_exceptions.md R323) -/

theorem State.tone_iff (s : State) : s.tone = true ↔ s.st ≠ 0#8 := bne_iff_ne

theorem State.tone_iff_pos (s : State) : s.tone = true ↔ 0 < s.st.toNat :=
  s.tone_iff.trans (BitVec.toNat_ne.trans Nat.pos_iff_ne_zero.symm)

/-- The tone lasts as many ticks as ST counts, unless the CORE is Halted. -/
theorem tone_after_ticks {s : State} (h : ∀ code, s.mode ≠ .halted code) (n : Nat) :
    ∃ u, runEvents (List.replicate n .tick) s = .next u ∧ (u.tone = true ↔ n < s.st.toNat) := by
  obtain ⟨u, hrun, -, hst, -⟩ := runEvents_ticks h n
  exact ⟨u, hrun, by rw [State.tone_iff_pos, hst, Nat.sub_pos_iff_lt]⟩

/-! ### The obligations -/

/-- Settles O44: each instruction writes one register or timer and takes the next instruction; ST, which holds V[x] after
LD ST, Vx, is what the tone and its length are read from. -/
theorem timerRegistersMove : Obligations.TimerRegistersMove := by
  intro x
  refine ⟨decode_ldVxDt_word x, decode_ldDtVx_word x, decode_ldStVx_word x, fun s => ⟨?_, ?_, ?_⟩⟩
  · exact ⟨_, rfl, s.setReg_seq_spec x s.dt⟩
  · exact ⟨_, rfl, s.setDt_seq_spec (s.reg x)⟩
  · obtain ⟨hst, hpc, hframe⟩ := s.setSt_seq_spec (s.reg x)
    refine ⟨_, rfl, hst, hpc, ?_, fun hmode n => ?_, hframe⟩
    · rw [State.tone_iff, hst]
    · have hticks := tone_after_ticks (s := (s.setSt (s.reg x)).seq) hmode n
      rwa [hst] at hticks

end Sys2Proof.Machine
end

section
/-! The timer unit (60_exceptions.md): what a tick does to the two counters, and what it leaves as it was. -/

namespace Sys2Proof.Machine

/-! ### A counter (R320) -/

theorem countDown_add_one {b : Byte} (h : b.toNat > 0) : (countDown b).toNat + 1 = b.toNat := by
  rw [countDown_toNat, Nat.sub_add_cancel h]

theorem countDown_of_zero {b : Byte} (h : b.toNat = 0) : (countDown b).toNat = 0 := by
  rw [countDown_toNat, h]

/-! ### A tick and its frame (R320, 40_dispatch.md R139) -/

theorem unchanged_clearOutputs (s : State) : Unchanged s s.clearOutputs (fun p => p = .fbStrobe ∨ p = .unk) := by
  intro p hp
  cases p with
  | fbStrobe => exact absurd (.inl rfl) hp
  | unk => exact absurd (.inr rfl) hp
  | _ => rfl

theorem unchanged_clearOutputs_setDt_setSt (s : State) (d b : Byte) :
    Unchanged s ((s.clearOutputs.setDt d).setSt b) (fun p => p = .dt ∨ p = .st ∨ p = .fbStrobe ∨ p = .unk) :=
  (((unchanged_clearOutputs s).mono fun _ hp => .inr (.inr hp)).trans
    ((unchanged_setDt _ d).mono fun _ => .inl)).trans
    ((unchanged_setSt _ b).mono fun _ hp => .inr (.inl hp))

theorem tick_of_not_halted {s : State} (h : ∀ code, s.mode ≠ .halted code) :
    tick s = (s.clearOutputs.setDt (countDown s.dt)).setSt (countDown s.st) := by
  obtain ⟨⟨code, hcode⟩, -⟩ | ⟨-, htick⟩ := tick_cases s
  · exact absurd hcode (h code)
  · exact htick

/-- A tick of a CORE that is not Halted: the two counters, and its frame. -/
theorem tick_spec {s : State} (h : ∀ code, s.mode ≠ .halted code) :
    (tick s).dt = countDown s.dt ∧ (tick s).st = countDown s.st ∧
      Unchanged s (tick s) (fun p => p = .dt ∨ p = .st ∨ p = .fbStrobe ∨ p = .unk) := by
  rw [tick_of_not_halted h]
  exact ⟨rfl, rfl, unchanged_clearOutputs_setDt_setSt s (countDown s.dt) (countDown s.st)⟩

/-! ### The obligations -/

/-- Settles O45: one tick is `countDown` on each counter; n ticks, by the induction in `runEvents_ticks`, take n off DT,
which is then 0 when DT was at most n. -/
theorem tickCountsDown : Obligations.TickCountsDown := by
  refine ⟨fun s hmode => ?_, fun s n hmode hn => ?_⟩
  · obtain ⟨hdt, hst, hframe⟩ := tick_spec hmode
    refine ⟨tick s, rfl, ?_, ?_, ?_, ?_, hframe⟩
    · exact hdt ▸ countDown_add_one
    · exact hdt ▸ countDown_of_zero
    · exact hst ▸ countDown_add_one
    · exact hst ▸ countDown_of_zero
  · obtain ⟨t, hrun, hdt, -⟩ := runEvents_ticks hmode n
    exact ⟨t, hrun, BitVec.eq_of_toNat_eq (hdt.trans (Nat.sub_eq_zero_of_le hn))⟩

end Sys2Proof.Machine
end

section
/-! The encoding family (30_encoding.md): the fields of the words the encoder builds, pattern by pattern; the word rebuilt
from its fields; and so decode and encode are inverse to each other. -/

namespace Sys2Proof.Machine

/-! ### The decode of a pattern's word (R93, R94) -/

/-- A word `00nn` of SYS is neither CLS nor RET (R95). -/
theorem decodeFamily0_sys {nnn : Addr} (hwf : Instr.wf (.sys nnn) = true) :
    decodeFamily0 (encNNN 0 nnn) = .instr (.sys nnn) := by
  simp only [Instr.wf, Bool.and_eq_true, bne_iff_ne] at hwf
  obtain ⟨hcls, hret⟩ := hwf
  have field {a : Addr} (w : Word) (hw : opNNN w = a) (hne : nnn ≠ a) : encNNN 0 nnn ≠ w := fun h =>
    hne ((opNNN_encNNN (by decide) nnn).symm.trans ((congrArg opNNN h).trans hw))
  rw [decodeFamily0, if_neg (field 0x00E0#16 rfl hcls), if_neg (field 0x00EE#16 rfl hret), opNNN_encNNN (by decide)]

/-- The low byte of a word written in digits. -/
theorem opKK_hexWord_toNat {a b c d : Nat} (ha : a < 16) (hb : b < 16) (hc : c < 16) (hd : d < 16) :
    (opKK (hexWord a b c d)).toNat = c * 16 + d :=
  (opKK_toNat _).trans (hexWord_low ha hb hc hd)

theorem opN_hexWord {a b c : Nat} (ha : a < 16) (hb : b < 16) (hc : c < 16) (n : Fin 16) :
    opN (hexWord a b c n) = n :=
  Fin.ext (opN_hexWord_val ha hb hc n.isLt)

/-- Decoding the word of an instruction gives it back: the family digit picks the decode of the family, the fixed digits
the instruction in it, and each field is an operand. -/
theorem decode_encode {i : Instr} (hwf : i.wf = true) : decode (encode i) = .instr i := by
  cases i with
  | cls => rfl
  | ret => rfl
  | sys nnn => rw [encode, decode_family0 (opFamily_encNNN (by decide) nnn), decodeFamily0_sys hwf]
  | jp nnn => rw [encode, decode_family1 (opFamily_encNNN (by decide) nnn), opNNN_encNNN (by decide)]
  | call nnn => rw [encode, decode_family2 (opFamily_encNNN (by decide) nnn), opNNN_encNNN (by decide)]
  | ldI nnn => rw [encode, decode_familyA (opFamily_encNNN (by decide) nnn), opNNN_encNNN (by decide)]
  | jpV0 nnn => rw [encode, decode_familyB (opFamily_encNNN (by decide) nnn), opNNN_encNNN (by decide)]
  | seByte x kk => simp [encode, decode_family3, opFamily_encXKK, opX_encXKK, opKK_encXKK]
  | sneByte x kk => simp [encode, decode_family4, opFamily_encXKK, opX_encXKK, opKK_encXKK]
  | ldByte x kk => simp [encode, decode_family6, opFamily_encXKK, opX_encXKK, opKK_encXKK]
  | addByte x kk => simp [encode, decode_family7, opFamily_encXKK, opX_encXKK, opKK_encXKK]
  | rnd x kk => simp [encode, decode_familyC, opFamily_encXKK, opX_encXKK, opKK_encXKK]
  | seReg x y => simp [encode, decode_family5, opFamily_hexWord, opX_hexWord, opY_hexWord, opN_hexWord_val]
  | sneReg x y => simp [encode, decode_family9, opFamily_hexWord, opX_hexWord, opY_hexWord, opN_hexWord_val]
  | drw x y n => simp [encode, decode_familyD, opFamily_hexWord, opX_hexWord, opY_hexWord, opN_hexWord]
  | ldReg x y | orReg x y | andReg x y | xorReg x y | addReg x y | sub x y | shr x y | subn x y | shl x y =>
    simp [encode, decode_family8, decodeFamily8, opFamily_hexWord, opX_hexWord, opY_hexWord, opN_hexWord_val]
  | skp x | sknp x =>
    simp [encode, decode_familyE, decodeFamilyE, opFamily_hexWord, opX_hexWord, opKK_hexWord_toNat]
  | ldVxDt x | ldVxK x | ldDtVx x | ldStVx x | addI x | ldF x | ldB x | storeRegs x | loadRegs x =>
    simp [encode, decode_familyF, decodeFamilyF, opFamily_hexWord, opX_hexWord, opKK_hexWord_toNat]

/-- Settles O2: on bytes, the two bytes of a word read in the stored order are the word. -/
theorem decodeOfEncodeIsIdentity : Obligations.DecodeOfEncodeIsIdentity := by
  intro i hwf
  refine ⟨decode_encode hwf, fun rest => ?_⟩
  simp only [encodeBytes, List.cons_append, List.nil_append, decodeBytes, wordOfBytes_high_low, decode_encode hwf]

/-! ### A word rebuilt from its fields (R91) -/

theorem encNNN_fields {op : Word} {f : Nat} (hf : opFamily op = f) : encNNN f (opNNN op) = op := by
  apply BitVec.eq_of_toNat_eq
  rw [encNNN_toNat (hf ▸ opFamily_lt op), opNNN_toNat, ← hf, opFamily_toNat]
  omega

theorem encXKK_fields {op : Word} {f : Nat} (hf : opFamily op = f) : encXKK f (opX op) (opKK op) = op := by
  apply BitVec.eq_of_toNat_eq
  rw [encXKK_toNat (hf ▸ opFamily_lt op), opX_val, opKK_toNat, ← hf, opFamily_toNat]
  omega

theorem hexWord_fields {op : Word} {f n : Nat} (hf : opFamily op = f) (hn : (opN op).val = n) :
    hexWord f (opX op) (opY op) n = op := by
  apply BitVec.eq_of_toNat_eq
  rw [hexWord_toNat (hf ▸ opFamily_lt op) (opX op).isLt (opY op).isLt (hn ▸ (opN op).isLt), opX_val, opY_val, ← hn,
    opN_val, ← hf, opFamily_toNat]
  omega

/-- With a fixed low byte, written as its two digits. -/
theorem hexWord_fields_kk {op : Word} {f c d : Nat} (hf : opFamily op = f) (hc : c < 16) (hd : d < 16)
    (hkk : (opKK op).toNat = c * 16 + d) : hexWord f (opX op) c d = op := by
  apply BitVec.eq_of_toNat_eq
  rw [opKK_toNat] at hkk
  rw [hexWord_toNat (hf ▸ opFamily_lt op) (opX op).isLt hc hd, opX_val, ← hf, opFamily_toNat]
  omega

/-! ### What the decoder answers, family by family -/

/-- The families of unknown words (30_encoding.md section 3), by a word's family digit, last digit and low byte. -/
def UnknownFields (f n kk : Nat) : Prop :=
  (f = 0x5 ∧ n ≠ 0) ∨
  (f = 0x8 ∧ (n = 0x8 ∨ n = 0x9 ∨ n = 0xA ∨ n = 0xB ∨ n = 0xC ∨ n = 0xD ∨ n = 0xF)) ∨
  (f = 0x9 ∧ n ≠ 0) ∨
  (f = 0xE ∧ kk ≠ 0x9E ∧ kk ≠ 0xA1) ∨
  (f = 0xF ∧ kk ≠ 0x07 ∧ kk ≠ 0x0A ∧ kk ≠ 0x15 ∧ kk ≠ 0x18 ∧ kk ≠ 0x1E ∧ kk ≠ 0x29 ∧ kk ≠ 0x33 ∧ kk ≠ 0x55 ∧ kk ≠ 0x65)

/-- The word is in one of the families of unknown words. -/
def UnknownWord (op : Word) : Prop := UnknownFields (opFamily op) (opN op).val (opKK op).toNat

/-- A right answer for a word: an instruction that is well-formed, encoded as the word, and then the word is in no unknown
family; or the word itself as unknown, and then it is in one. -/
def RightAnswer (op : Word) : Decoded → Prop
  | .instr i => i.wf = true ∧ encode i = op ∧ ¬ UnknownWord op
  | .unknown op' => op' = op ∧ UnknownWord op

theorem decodeFamily0_right {op : Word} (hf : opFamily op = 0x0) : RightAnswer op (decodeFamily0 op) := by
  have hknown : ¬ UnknownWord op := by simp [UnknownWord, UnknownFields, hf]
  have hop : encNNN 0x0 (opNNN op) = op := encNNN_fields hf
  unfold decodeFamily0
  split_ifs with hcls hret
  · exact ⟨rfl, hcls.symm, hknown⟩
  · exact ⟨rfl, hret.symm, hknown⟩
  · refine ⟨?_, hop, hknown⟩
    have hne {a : Addr} (h : encNNN 0x0 a ≠ op) : opNNN op ≠ a := fun e => h (e ▸ hop)
    simp only [Instr.wf, Bool.and_eq_true, bne_iff_ne]
    exact ⟨hne (Ne.symm hcls), hne (Ne.symm hret)⟩

/-- An instruction of a family with a fixed last digit. -/
theorem rightAnswer_digit {op : Word} {f n : Nat} {i : Instr} (hf : opFamily op = f) (hn : (opN op).val = n)
    (hwf : i.wf = true) (henc : encode i = hexWord f (opX op) (opY op) n) (hknown : ∀ kk, ¬ UnknownFields f n kk) :
    RightAnswer op (.instr i) :=
  ⟨hwf, henc.trans (hexWord_fields hf hn), by rw [UnknownWord, hf, hn]; exact hknown _⟩

/-- An instruction of a family with a fixed low byte. -/
theorem rightAnswer_lowByte {op : Word} {f c d : Nat} {i : Instr} (hf : opFamily op = f)
    (hkk : (opKK op).toNat = c * 16 + d) (hc : c < 16) (hd : d < 16) (hwf : i.wf = true)
    (henc : encode i = hexWord f (opX op) c d) (hknown : ∀ n, ¬ UnknownFields f n (c * 16 + d)) :
    RightAnswer op (.instr i) :=
  ⟨hwf, henc.trans (hexWord_fields_kk hf hc hd hkk), by rw [UnknownWord, hf, hkk]; exact hknown _⟩

theorem decodeFamily8_right {op : Word} (hf : opFamily op = 0x8) : RightAnswer op (decodeFamily8 op) := by
  simp only [decodeFamily8]
  split_ifs with h0 h1 h2 h3 h4 h5 h6 h7 hE
  · exact rightAnswer_digit hf h0 rfl rfl (by simp [UnknownFields])
  · exact rightAnswer_digit hf h1 rfl rfl (by simp [UnknownFields])
  · exact rightAnswer_digit hf h2 rfl rfl (by simp [UnknownFields])
  · exact rightAnswer_digit hf h3 rfl rfl (by simp [UnknownFields])
  · exact rightAnswer_digit hf h4 rfl rfl (by simp [UnknownFields])
  · exact rightAnswer_digit hf h5 rfl rfl (by simp [UnknownFields])
  · exact rightAnswer_digit hf h6 rfl rfl (by simp [UnknownFields])
  · exact rightAnswer_digit hf h7 rfl rfl (by simp [UnknownFields])
  · exact rightAnswer_digit hf hE rfl rfl (by simp [UnknownFields])
  · have hlt := (opN op).isLt
    exact ⟨rfl, .inr (.inl ⟨hf, by omega⟩)⟩

theorem decodeFamilyE_right {op : Word} (hf : opFamily op = 0xE) : RightAnswer op (decodeFamilyE op) := by
  simp only [decodeFamilyE]
  split_ifs with h9E hA1
  · exact rightAnswer_lowByte (c := 0x9) (d := 0xE) hf h9E (by decide) (by decide) rfl rfl (by simp [UnknownFields])
  · exact rightAnswer_lowByte (c := 0xA) (d := 0x1) hf hA1 (by decide) (by decide) rfl rfl (by simp [UnknownFields])
  · exact ⟨rfl, by simp [UnknownWord, UnknownFields, *]⟩

theorem decodeFamilyF_right {op : Word} (hf : opFamily op = 0xF) : RightAnswer op (decodeFamilyF op) := by
  simp only [decodeFamilyF]
  split_ifs with h07 h0A h15 h18 h1E h29 h33 h55 h65
  · exact rightAnswer_lowByte (c := 0x0) (d := 0x7) hf h07 (by decide) (by decide) rfl rfl (by simp [UnknownFields])
  · exact rightAnswer_lowByte (c := 0x0) (d := 0xA) hf h0A (by decide) (by decide) rfl rfl (by simp [UnknownFields])
  · exact rightAnswer_lowByte (c := 0x1) (d := 0x5) hf h15 (by decide) (by decide) rfl rfl (by simp [UnknownFields])
  · exact rightAnswer_lowByte (c := 0x1) (d := 0x8) hf h18 (by decide) (by decide) rfl rfl (by simp [UnknownFields])
  · exact rightAnswer_lowByte (c := 0x1) (d := 0xE) hf h1E (by decide) (by decide) rfl rfl (by simp [UnknownFields])
  · exact rightAnswer_lowByte (c := 0x2) (d := 0x9) hf h29 (by decide) (by decide) rfl rfl (by simp [UnknownFields])
  · exact rightAnswer_lowByte (c := 0x3) (d := 0x3) hf h33 (by decide) (by decide) rfl rfl (by simp [UnknownFields])
  · exact rightAnswer_lowByte (c := 0x5) (d := 0x5) hf h55 (by decide) (by decide) rfl rfl (by simp [UnknownFields])
  · exact rightAnswer_lowByte (c := 0x6) (d := 0x5) hf h65 (by decide) (by decide) rfl rfl (by simp [UnknownFields])
  · exact ⟨rfl, by simp [UnknownWord, UnknownFields, *]⟩

/-- The families that hold no unknown word. -/
theorem not_unknownWord {op : Word} {f : Nat} (hf : opFamily op = f) (h : ∀ n kk, ¬ UnknownFields f n kk) :
    ¬ UnknownWord op := by
  rw [UnknownWord, hf]
  exact h _ _

/-- The decoder's answer is right for every word (R97). -/
theorem decode_right (op : Word) : RightAnswer op (decode op) := by
  have hlt := opFamily_lt op
  interval_cases hf : opFamily op
  · rw [decode_family0 hf]; exact decodeFamily0_right hf
  · rw [decode_family1 hf]; exact ⟨rfl, encNNN_fields hf, not_unknownWord hf (by simp [UnknownFields])⟩
  · rw [decode_family2 hf]; exact ⟨rfl, encNNN_fields hf, not_unknownWord hf (by simp [UnknownFields])⟩
  · rw [decode_family3 hf]; exact ⟨rfl, encXKK_fields hf, not_unknownWord hf (by simp [UnknownFields])⟩
  · rw [decode_family4 hf]; exact ⟨rfl, encXKK_fields hf, not_unknownWord hf (by simp [UnknownFields])⟩
  · rw [decode_family5 hf]
    split_ifs with h0
    · exact rightAnswer_digit hf h0 rfl rfl (by simp [UnknownFields])
    · exact ⟨rfl, .inl ⟨hf, h0⟩⟩
  · rw [decode_family6 hf]; exact ⟨rfl, encXKK_fields hf, not_unknownWord hf (by simp [UnknownFields])⟩
  · rw [decode_family7 hf]; exact ⟨rfl, encXKK_fields hf, not_unknownWord hf (by simp [UnknownFields])⟩
  · rw [decode_family8 hf]; exact decodeFamily8_right hf
  · rw [decode_family9 hf]
    split_ifs with h0
    · exact rightAnswer_digit hf h0 rfl rfl (by simp [UnknownFields])
    · exact ⟨rfl, .inr (.inr (.inl ⟨hf, h0⟩))⟩
  · rw [decode_familyA hf]; exact ⟨rfl, encNNN_fields hf, not_unknownWord hf (by simp [UnknownFields])⟩
  · rw [decode_familyB hf]; exact ⟨rfl, encNNN_fields hf, not_unknownWord hf (by simp [UnknownFields])⟩
  · rw [decode_familyC hf]; exact ⟨rfl, encXKK_fields hf, not_unknownWord hf (by simp [UnknownFields])⟩
  · rw [decode_familyD hf]; exact ⟨rfl, hexWord_fields hf rfl, not_unknownWord hf (by simp [UnknownFields])⟩
  · rw [decode_familyE hf]; exact decodeFamilyE_right hf
  · rw [decode_familyF hf]; exact decodeFamilyF_right hf

theorem decode_instr_right {op : Word} {i : Instr} (h : decode op = .instr i) :
    i.wf = true ∧ encode i = op ∧ ¬ UnknownWord op := by
  have hright := decode_right op
  rwa [h] at hright

theorem decode_unknown_right {op op' : Word} (h : decode op = .unknown op') : op' = op ∧ UnknownWord op := by
  have hright := decode_right op
  rwa [h] at hright

/-- Settles O3: the answer of the decoder is right, family by family. -/
theorem decodedWordIsItsEncoding : Obligations.DecodedWordIsItsEncoding := by
  intro op i h
  obtain ⟨hwf, henc, -⟩ := decode_instr_right h
  exact ⟨hwf, henc⟩

end Sys2Proof.Machine
end

section
/-! The encoding family, continued: the unknown words and the policy that a step executes them by, the table of masks, and
the assembler (30_encoding.md sections 3 and 4, 40_dispatch.md section 2). -/

namespace Sys2Proof.Machine

/-! ### Unknown words (30_encoding.md R96, 40_dispatch.md R135) -/

theorem decode_unknown_iff (op : Word) : (∃ op', decode op = .unknown op') ↔ UnknownWord op := by
  constructor
  · rintro ⟨op', h⟩
    exact (decode_unknown_right h).2
  · intro hop
    cases h : decode op with
    | instr i => exact absurd hop (decode_instr_right h).2.2
    | unknown op' => exact ⟨op', rfl⟩

/-- A Running step on a fetchable PC executes an unknown word by the policy of R135, outputs cleared (R139). -/
theorem dispatcherStep_unknown {s : State} {op : Word} (hm : s.mode = .running) (hf : fetchError s.pc = none)
    (hd : decode s.fetchWord = .unknown op) :
    dispatcherStep s = .next (s.clearOutputs.start.emitUnknown s.fetchWord).seq := by
  obtain ⟨rfl, -⟩ := decode_unknown_right hd
  have hw : s.clearOutputs.start.fetchWord = s.fetchWord := rfl
  simp only [dispatcherStep, hm, fetchExecute, State.start_pc, State.clearOutputs_pc, hf, hw, hd, execUnknown]

/-- Settles O4: the unknown families are the answers of the decoder that are no instruction, and a step on one is the
policy of R135. -/
theorem unknownWordsAreExactlyThese : Obligations.UnknownWordsAreExactlyThese := by
  refine ⟨fun op => ?_, fun op op' h => (decode_unknown_right h).1, fun s hm hpc hd => ?_⟩
  · simpa only [UnknownWord, UnknownFields, opFamily_toNat, opN_val, opKK_toNat] using decode_unknown_iff op
  · exact ⟨_, dispatcherStep_unknown hm (fetchError_none.mpr hpc) hd, hm, rfl, rfl⟩

/-! ### The opcode table (R95) -/

theorem OpcodeRow.fits_eq (r : OpcodeRow) (op : Word) :
    r.fits op = decide ((op &&& r.mask).toNat = r.pattern.toNat) := by
  rw [Bool.eq_iff_iff, OpcodeRow.fits, beq_iff_eq, decide_eq_true_iff, BitVec.toNat_inj]

/-- A family digit and a rest below 4096 make a word: it is a given one when both are the given one's. -/
theorem family_or_rest_eq_iff {op : Word} {r p : Nat} (hr : r < 4096) :
    (BitVec.ofNat 16 (op.toNat / 4096 * 4096) ||| BitVec.ofNat 16 r).toNat = p ↔
      opFamily op = p / 4096 ∧ r = p % 4096 := by
  have hf := opFamily_lt op
  have hsum : opFamily op * 4096 ||| r = opFamily op * 4096 + r := by
    rw [← Nat.shiftLeft_eq _ 12]
    exact (Nat.shiftLeft_add_eq_or_of_lt hr _).symm
  rw [← opFamily_toNat, BitVec.toNat_or, BitVec.toNat_ofNat, BitVec.toNat_ofNat, Nat.mod_eq_of_lt (by omega),
    Nat.mod_eq_of_lt (by omega), hsum]
  omega

/-- A row of mask FFFF compares the family digit and the rest of the word. -/
theorem fits_FFFF_eq (p op : Word) : (OpcodeRow.mk p 0xFFFF#16).fits op =
    decide (opFamily op = p.toNat / 4096 ∧ (opNNN op).toNat = p.toNat % 4096) := by
  have hand : op &&& 0xFFFF#16 = op := BitVec.and_allOnes
  rw [OpcodeRow.fits_eq, hand, opFamily_toNat, opNNN_toNat, decide_eq_decide]
  change op.toNat = p.toNat ↔ _
  omega

/-- A row of mask F00F compares the family digit and the last digit. -/
theorem fits_F00F_eq (p op : Word) : (OpcodeRow.mk p 0xF00F#16).fits op =
    decide (opFamily op = p.toNat / 4096 ∧ (opN op).val = p.toNat % 4096) := by
  rw [OpcodeRow.fits_eq, and_F00F, decide_eq_decide, opN_val, family_or_rest_eq_iff (by omega)]

/-- A row of mask F0FF compares the family digit and the low byte. -/
theorem fits_F0FF_eq (p op : Word) : (OpcodeRow.mk p 0xF0FF#16).fits op =
    decide (opFamily op = p.toNat / 4096 ∧ (opKK op).toNat = p.toNat % 4096) := by
  rw [OpcodeRow.fits_eq, and_F0FF, decide_eq_decide, opKK_toNat, family_or_rest_eq_iff (by omega)]

/-- The rows of a family, in the table's order. -/
def familyRows (f : Nat) : List OpcodeRow := opcodeTable.filter fun r => r.pattern.toNat / 4096 = f

theorem familyRows_8 : familyRows 0x8 =
    [⟨0x8000#16, 0xF00F#16⟩, ⟨0x8001#16, 0xF00F#16⟩, ⟨0x8002#16, 0xF00F#16⟩, ⟨0x8003#16, 0xF00F#16⟩,
      ⟨0x8004#16, 0xF00F#16⟩, ⟨0x8005#16, 0xF00F#16⟩, ⟨0x8006#16, 0xF00F#16⟩, ⟨0x8007#16, 0xF00F#16⟩,
      ⟨0x800E#16, 0xF00F#16⟩] := rfl

theorem familyRows_E : familyRows 0xE = [⟨0xE09E#16, 0xF0FF#16⟩, ⟨0xE0A1#16, 0xF0FF#16⟩] := rfl

theorem familyRows_F : familyRows 0xF =
    [⟨0xF007#16, 0xF0FF#16⟩, ⟨0xF00A#16, 0xF0FF#16⟩, ⟨0xF015#16, 0xF0FF#16⟩, ⟨0xF018#16, 0xF0FF#16⟩,
      ⟨0xF01E#16, 0xF0FF#16⟩, ⟨0xF029#16, 0xF0FF#16⟩, ⟨0xF033#16, 0xF0FF#16⟩, ⟨0xF055#16, 0xF0FF#16⟩,
      ⟨0xF065#16, 0xF0FF#16⟩] := rfl

/-- Every mask of the table keeps the family digit, so a row that fits a word is of its family. -/
theorem family_of_fits {r : OpcodeRow} {op : Word} (hr : r ∈ opcodeTable) (h : r.fits op = true) :
    r.pattern.toNat / 4096 = opFamily op := by
  have hmask : ∀ r ∈ opcodeTable, r.mask &&& 0xF000#16 = 0xF000#16 := by decide
  have hpat : op &&& r.mask = r.pattern := beq_iff_eq.mp h
  have hand : r.pattern &&& 0xF000#16 = op &&& 0xF000#16 := by rw [← hpat, BitVec.and_assoc, hmask r hr]
  have hnat := congrArg BitVec.toNat hand
  have hop := op.isLt
  have hp := r.pattern.isLt
  rw [and_F000, and_F000, BitVec.toNat_ofNat, BitVec.toNat_ofNat] at hnat
  rw [opFamily_toNat]
  omega

/-- Only the rows of a word's family are searched. -/
theorem find_row_family {op : Word} {f : Nat} (hf : opFamily op = f) :
    opcodeTable.find? (fun r => r.fits op) = (familyRows f).find? (fun r => r.fits op) := by
  rw [familyRows, List.find?_filter]
  apply List.find?_congr
  intro r hr
  by_cases h : r.fits op = true
  · simp [h, (family_of_fits hr h).trans hf]
  · simp [h]

/-- An instruction that is alone in its family. -/
theorem find_row_single {i : Instr} {f : Nat} (hf : opFamily (encode i) = f) (hrows : familyRows f = [i.row])
    (hfits : i.row.fits (encode i) = true) : opcodeTable.find? (fun r => r.fits (encode i)) = some i.row := by
  rw [find_row_family hf, hrows]
  simp [hfits]

/-- The row found for the word of an instruction is the instruction's: in a family of several rows, the rest of the word,
the last digit or the low byte leaves one. -/
theorem find_row_encode {i : Instr} (hwf : i.wf = true) :
    opcodeTable.find? (fun r => r.fits (encode i)) = some i.row := by
  cases i with
  | cls => rfl
  | ret => rfl
  | sys nnn =>
    obtain ⟨hcls, hret⟩ : nnn ≠ 0x0E0#12 ∧ nnn ≠ 0x0EE#12 := by simpa [Instr.wf] using hwf
    have hclsNat : nnn.toNat ≠ 0x0E0 := BitVec.toNat_ne.mp hcls
    have hretNat : nnn.toNat ≠ 0x0EE := BitVec.toNat_ne.mp hret
    have hrows : familyRows 0x0 = [⟨0x00E0#16, 0xFFFF#16⟩, ⟨0x00EE#16, 0xFFFF#16⟩, Instr.row (.sys nnn)] := rfl
    have hfits : (Instr.row (.sys nnn)).fits (encNNN 0x0 nnn) = true := Laws.EncodingFits.sys nnn
    rw [encode, find_row_family (opFamily_encNNN (by decide) nnn), hrows]
    simp [fits_FFFF_eq, opNNN_encNNN, hclsNat, hretNat, hfits]
  | jp nnn => exact find_row_single (opFamily_encNNN (by decide) nnn) rfl (Laws.EncodingFits.jp nnn)
  | call nnn => exact find_row_single (opFamily_encNNN (by decide) nnn) rfl (Laws.EncodingFits.call nnn)
  | ldI nnn => exact find_row_single (opFamily_encNNN (by decide) nnn) rfl (Laws.EncodingFits.ldI nnn)
  | jpV0 nnn => exact find_row_single (opFamily_encNNN (by decide) nnn) rfl (Laws.EncodingFits.jpV0 nnn)
  | seByte x kk => exact find_row_single (opFamily_encXKK (by decide) x kk) rfl (Laws.EncodingFits.seByte x kk)
  | sneByte x kk => exact find_row_single (opFamily_encXKK (by decide) x kk) rfl (Laws.EncodingFits.sneByte x kk)
  | ldByte x kk => exact find_row_single (opFamily_encXKK (by decide) x kk) rfl (Laws.EncodingFits.ldByte x kk)
  | addByte x kk => exact find_row_single (opFamily_encXKK (by decide) x kk) rfl (Laws.EncodingFits.addByte x kk)
  | rnd x kk => exact find_row_single (opFamily_encXKK (by decide) x kk) rfl (Laws.EncodingFits.rnd x kk)
  | seReg x y =>
    exact find_row_single (opFamily_hexWord (by decide) x.isLt y.isLt (by decide)) rfl (Laws.EncodingFits.seReg x y)
  | sneReg x y =>
    exact find_row_single (opFamily_hexWord (by decide) x.isLt y.isLt (by decide)) rfl (Laws.EncodingFits.sneReg x y)
  | drw x y n =>
    exact find_row_single (opFamily_hexWord (by decide) x.isLt y.isLt n.isLt) rfl (Laws.EncodingFits.drw x y n)
  | ldReg x y | orReg x y | andReg x y | xorReg x y | addReg x y | sub x y | shr x y | subn x y | shl x y =>
    rw [encode, find_row_family (opFamily_hexWord (by decide) x.isLt y.isLt (by decide)), familyRows_8]
    simp [fits_F00F_eq, Instr.row, opFamily_hexWord, opN_hexWord_val]
  | skp x | sknp x =>
    rw [encode, find_row_family (opFamily_hexWord (by decide) x.isLt (by decide) (by decide)), familyRows_E]
    simp [fits_F0FF_eq, Instr.row, opFamily_hexWord, opKK_hexWord_toNat]
  | ldVxDt x | ldVxK x | ldDtVx x | ldStVx x | addI x | ldF x | ldB x | storeRegs x | loadRegs x =>
    rw [encode, find_row_family (opFamily_hexWord (by decide) x.isLt (by decide) (by decide)), familyRows_F]
    simp [fits_F0FF_eq, Instr.row, opFamily_hexWord, opKK_hexWord_toNat]

/-- An unknown word fits no row: no row of its family has its last digit or its low byte. -/
theorem find_row_unknown {op : Word} (h : UnknownWord op) : opcodeTable.find? (fun r => r.fits op) = none := by
  obtain ⟨hf, hn⟩ | ⟨hf, hn⟩ | ⟨hf, hn⟩ | ⟨hf, hkk⟩ | ⟨hf, hkk⟩ := h
  · have hrows : familyRows 0x5 = [⟨0x5000#16, 0xF00F#16⟩] := rfl
    rw [find_row_family hf, hrows]
    simp [fits_F00F_eq, hn]
  · rw [find_row_family hf, familyRows_8]
    obtain hn | hn | hn | hn | hn | hn | hn := hn <;> simp [fits_F00F_eq, hn]
  · have hrows : familyRows 0x9 = [⟨0x9000#16, 0xF00F#16⟩] := rfl
    rw [find_row_family hf, hrows]
    simp [fits_F00F_eq, hn]
  · rw [find_row_family hf, familyRows_E]
    simp [fits_F0FF_eq, hkk]
  · rw [find_row_family hf, familyRows_F]
    simp [fits_F0FF_eq, hkk]

/-- Settles O5: a word that decodes to an instruction is the instruction's encoding, whose row is found; an unknown word is
in an unknown family. -/
theorem decodePicksTheFirstMatchingRow : Obligations.DecodePicksTheFirstMatchingRow := by
  intro op
  refine ⟨fun i h => ?_, fun op' h => find_row_unknown (decode_unknown_right h).2⟩
  obtain ⟨hwf, rfl, -⟩ := decode_instr_right h
  exact find_row_encode hwf

/-! ### The assembler (30_encoding.md R98) -/

theorem assembleLine_asmLine {i : Instr} (hwf : i.wf = true) : assembleLine (asmLine i) = some i := by
  simp [assembleLine, assembleForm_asmLine, hwf]

/-- Settles O6: every operand of a written line is read back, so the line is; its form stands for the instruction. -/
theorem assemblerReadsWhatItWrites : Obligations.AssemblerReadsWhatItWrites := by
  intro i hwf
  have hparse : parseLine (asmText i) = some (asmLine i) := parseLine_chars _ (asmLine_operands i)
  have hline := assembleLine_asmLine hwf
  refine ⟨hparse, hline, ?_⟩
  rw [assembleText, hparse, Option.bind_some, hline, Option.map_some]

/-! ### The spec's example words -/

/-- Settles O1: the decoder, run on each word. -/
theorem exampleWordsDecode : Obligations.ExampleWordsDecode := by
  unfold Obligations.ExampleWordsDecode
  decide

end Sys2Proof.Machine
end

section
/-! What an instruction writes, said once for each (40_dispatch.md R134): the frames of the updates of the state, the parts
that each instruction may write, and the frame of `exec`. -/

namespace Sys2Proof.Machine

/-! ### The frames of single updates -/

theorem unchanged_setReg (s : State) (x : Reg) (b : Byte) : Unchanged s (s.setReg x b) (fun p => p = .v x) := by
  intro p hp
  cases p with
  | v r => exact State.reg_setReg_other s b fun hxr => hp (congrArg Part.v hxr.symm)
  | _ => rfl

theorem unchanged_latchKeys (s : State) : Unchanged s s.latchKeys (fun p => p = .keyPrev) := by
  intro p hp
  cases p with
  | keyPrev => exact absurd rfl hp
  | _ => rfl

theorem unchanged_nextDraw (s : State) : Unchanged s s.nextDraw (fun p => p = .draws) := by
  intro p hp
  cases p with
  | draws => exact absurd rfl hp
  | _ => rfl

theorem unchanged_emitUnknown (s : State) (op : Word) : Unchanged s (s.emitUnknown op) (fun p => p = .unk) := by
  intro p hp
  cases p with
  | unk => exact absurd rfl hp
  | _ => rfl

theorem unchanged_start (s : State) : Unchanged s s.start (fun p => p = .started) := by
  intro p hp
  cases p with
  | started => exact absurd rfl hp
  | _ => rfl

theorem unchanged_popEvent (s : State) : Unchanged s s.popEvent (fun p => p = .events) := by
  intro p hp
  cases p with
  | events => exact absurd rfl hp
  | _ => rfl

/-- Replacing memory writes the bytes that read differently. -/
theorem unchanged_setMem (s : State) {m : Memory} {written : Addr → Prop}
    (h : ∀ a, ¬ written a → m.read a = s.mem.read a) :
    Unchanged s (s.setMem m) (fun p => ∃ a, written a ∧ p = .mem a) := by
  intro p hp
  cases p with
  | mem a => exact h a fun ha => hp ⟨a, ha, rfl⟩
  | _ => rfl

theorem unchanged_writeMem (s : State) (a : Addr) (b : Byte) : Unchanged s (s.writeMem a b) (fun p => p = .mem a) := by
  refine (unchanged_setMem s (written := fun a' => a' = a) fun a' ha' => ?_).mono ?_
  · exact Memory.read_write_other _ _ (Ne.symm ha')
  · rintro p ⟨a', rfl, rfl⟩
    rfl

theorem unchanged_writeI (s : State) (k : Nat) (b : Byte) :
    Unchanged s (s.writeI k b) (fun p => p = .mem (iAddr s.i k)) :=
  unchanged_writeMem s _ b

/-- The dump of the first `n` registers writes the bytes IAddr(0) .. IAddr(n-1). -/
theorem unchanged_storeUpTo (s : State) (n : Nat) :
    Unchanged s (s.storeUpTo n) (fun p => ∃ k < n, p = .mem (iAddr s.i k)) := by
  obtain ⟨m, hm⟩ := s.storeUpTo_eq n
  have hread (a : Addr) (ha : ¬ ∃ k < n, a = iAddr s.i k) : m.read a = s.mem.read a := by
    have hout := s.readMem_storeUpTo_outside (n := n) (a := a) fun k hk e => ha ⟨k, hk, e.symm⟩
    rwa [hm] at hout
  rw [hm]
  refine (unchanged_setMem s hread).mono ?_
  rintro p ⟨a, ⟨k, hk, rfl⟩, rfl⟩
  exact ⟨k, hk, rfl⟩

/-- The load of the first `n` registers writes them only. -/
theorem unchanged_loadUpTo (s : State) {n : Nat} (hn : n ≤ 16) :
    Unchanged s (s.loadUpTo n) (fun p => ∃ r : Reg, r.val < n ∧ p = .v r) := by
  obtain ⟨v, hv⟩ := s.loadUpTo_eq n
  intro p hp
  cases p with
  | v r => exact (s.reg_loadUpTo hn r).trans (if_neg fun hr => hp ⟨r, hr, rfl⟩)
  | _ => rw [hv]; rfl

/-- A flag instruction writes V[x] and VF (41_register_alu.md, D13). -/
theorem unchanged_setRegFlag (s : State) (x : Reg) (b : Byte) (f : Bool) :
    Unchanged s (s.setRegFlag x b f) (fun p => p = .v x ∨ p = .v vf) :=
  ((unchanged_setReg s x b).mono fun _ => .inl).trans ((unchanged_setReg _ vf _).mono fun _ => .inr)

/-! ### What an instruction may write -/

/-- The parts of the state that an instruction may write, executed in `s`. -/
def instrWrites (s : State) (i : Instr) (p : Part) : Prop :=
  match i with
  | .cls => (∃ q, p = .pixel q) ∨ p = .fbStrobe ∨ p = .pc
  | .drw _ _ _ => (∃ q, p = .pixel q) ∨ p = .v vf ∨ p = .fbStrobe ∨ p = .pc
  | .sys _ => p = .unk ∨ p = .pc
  | .ret => p = .mode ∨ p = .sp ∨ p = .pc
  | .call _ => p = .mode ∨ (∃ j : Fin 16, j.val = s.sp.val ∧ p = .stack j) ∨ p = .sp ∨ p = .pc
  | .jp _ | .jpV0 _ | .seByte _ _ | .sneByte _ _ | .seReg _ _ | .sneReg _ _ | .skp _ | .sknp _ => p = .pc
  | .ldByte x _ | .addByte x _ | .ldReg x _ | .orReg x _ | .andReg x _ | .xorReg x _ | .ldVxDt x => p = .v x ∨ p = .pc
  | .addReg x _ | .sub x _ | .shr x _ | .subn x _ | .shl x _ => p = .v x ∨ p = .v vf ∨ p = .pc
  | .rnd x _ => p = .v x ∨ p = .pc ∨ p = .draws
  | .ldI _ | .addI _ | .ldF _ => p = .i ∨ p = .pc
  | .ldDtVx _ => p = .dt ∨ p = .pc
  | .ldStVx _ => p = .st ∨ p = .pc
  | .ldVxK _ => p = .mode ∨ p = .keyPrev
  | .ldB _ => (∃ k < 3, p = .mem (iAddr s.i k)) ∨ p = .pc
  | .storeRegs x => (∃ k ≤ x.val, p = .mem (iAddr s.i k)) ∨ p = .pc
  | .loadRegs x => (∃ r : Reg, r.val ≤ x.val ∧ p = .v r) ∨ p = .pc

theorem execCall_frame {nnn : Addr} {s t : State} (h : execCall nnn s = .next t) :
    Unchanged s t (instrWrites s (.call nnn)) := by
  obtain ⟨-, rfl⟩ | ⟨hsp, rfl⟩ := execCall_cases h
  · exact (unchanged_setMode s _).mono fun _ => .inl
  · refine ((unchanged_push s s.pc hsp).setPc _).mono ?_
    rintro p ((rfl | rfl) | rfl)
    · exact .inr (.inl ⟨_, rfl, rfl⟩)
    · exact .inr (.inr (.inl rfl))
    · exact .inr (.inr (.inr rfl))

theorem execRet_frame {s t : State} (h : execRet s = .next t) : Unchanged s t (instrWrites s .ret) := by
  obtain ⟨-, rfl⟩ | ⟨-, rfl⟩ := execRet_cases h
  · exact (unchanged_setMode s _).mono fun _ => .inl
  · exact ((unchanged_drop s).setPc _).mono fun _ => .inr

theorem unchanged_drawn (s : State) (fb : Framebuffer) (b : Byte) :
    Unchanged s ((s.setReg vf b).setFb fb).strobe.seq
      (fun p => (∃ q, p = .pixel q) ∨ p = .v vf ∨ p = .fbStrobe ∨ p = .pc) := by
  obtain ⟨-, -, -, hframe⟩ := (s.setReg vf b).setFb_strobe_seq_spec fb
  refine ((unchanged_setReg s vf b).mono fun _ hp => .inr (.inl hp)).trans (hframe.mono fun _ hp => ?_)
  exact hp.imp_right .inr

theorem unchanged_bcd (s : State) (b0 b1 b2 : Byte) :
    Unchanged s (((s.writeI 0 b0).writeI 1 b1).writeI 2 b2) (fun p => ∃ k < 3, p = .mem (iAddr s.i k)) :=
  (((unchanged_writeI s 0 b0).mono fun _ hp => ⟨0, by decide, hp⟩).trans
    ((unchanged_writeI _ 1 b1).mono fun _ hp => ⟨1, by decide, hp⟩)).trans
    ((unchanged_writeI _ 2 b2).mono fun _ hp => ⟨2, by decide, hp⟩)

/-- The frame of `exec`: an instruction changes no part outside those it may write. -/
theorem exec_frame {i : Instr} {s t : State} (h : exec i s = .next t) : Unchanged s t (instrWrites s i) := by
  cases i with
  | call nnn => exact execCall_frame h
  | ret => exact execRet_frame h
  | cls =>
    obtain rfl := next_inj h
    obtain ⟨-, -, -, hframe⟩ := s.setFb_strobe_seq_spec Framebuffer.clear
    exact hframe
  | drw x y n =>
    obtain rfl := next_inj h
    exact unchanged_drawn s _ _
  | sys nnn =>
    obtain rfl := next_inj h
    exact (unchanged_emitUnknown s _).setPc _
  | jp nnn | jpV0 nnn =>
    obtain rfl := next_inj h
    exact unchanged_setPc s _
  | seByte x kk | sneByte x kk | seReg x y | sneReg x y | skp x | sknp x =>
    obtain rfl := next_inj h
    obtain ⟨-, -, hframe⟩ := s.skipIf_spec _
    exact hframe
  | ldByte x kk | addByte x kk | ldReg x y | orReg x y | andReg x y | xorReg x y | ldVxDt x =>
    obtain rfl := next_inj h
    exact unchanged_setReg_setPc s x _ _
  | addReg x y | sub x y | shr x y | subn x y | shl x y =>
    obtain rfl := next_inj h
    exact ((unchanged_setRegFlag s x _ _).setPc _).mono fun _ => or_assoc.mp
  | rnd x kk =>
    obtain rfl := next_inj h
    exact ((unchanged_nextDraw s).mono fun _ hp => .inr (.inr hp)).trans
      ((unchanged_setReg_setPc _ x _ _).mono fun _ hp => hp.imp_right .inl)
  | ldI nnn | addI x | ldF x =>
    obtain rfl := next_inj h
    exact (unchanged_setI s _).setPc _
  | ldDtVx x =>
    obtain rfl := next_inj h
    exact (unchanged_setDt s _).setPc _
  | ldStVx x =>
    obtain rfl := next_inj h
    exact (unchanged_setSt s _).setPc _
  | ldVxK x =>
    obtain rfl := next_inj h
    exact ((unchanged_latchKeys s).mono fun _ => .inr).trans ((unchanged_setMode _ _).mono fun _ => .inl)
  | ldB x =>
    obtain rfl := next_inj h
    exact (unchanged_bcd s _ _ _).setPc _
  | storeRegs x =>
    obtain rfl := next_inj h
    refine ((unchanged_storeUpTo s (x.val + 1)).setPc _).mono fun _ hp => hp.imp_left ?_
    rintro ⟨k, hk, rfl⟩
    exact ⟨k, Nat.le_of_lt_succ hk, rfl⟩
  | loadRegs x =>
    obtain rfl := next_inj h
    refine ((unchanged_loadUpTo s x.isLt).setPc _).mono fun _ hp => hp.imp_left ?_
    rintro ⟨r, hr, rfl⟩
    exact ⟨r, Nat.le_of_lt_succ hr, rfl⟩

/-- A part of the state that an execution changed is one that the instruction writes. -/
theorem instrWrites_of_changed {i : Instr} {s t : State} {p : Part} (h : exec i s = .next t) (hp : ¬ p.same s t) :
    instrWrites s i p :=
  not_imp_comm.mp (exec_frame h p) hp

end Sys2Proof.Machine
end

section
/-! The dispatcher step and the host's events (40_dispatch.md, 10_state.md R42): what each answers, what each may change,
and where MODE can change. -/

namespace Sys2Proof.Machine

/-! ### What a dispatcher step answers (R130, R131) -/

theorem step_of_nextEvent_step {s : State} (h : s.nextEvent = .step) : step s = dispatcherStep s.popEvent := by
  rw [step, h]
  rfl

theorem dispatcherStep_badPc {s : State} {code : HaltCode} (hm : s.mode = .running) (hf : fetchError s.pc = some code) :
    dispatcherStep s = .next (s.clearOutputs.start.setMode (.halted code)) := by
  simp only [dispatcherStep, hm, fetchExecute, State.start_pc, State.clearOutputs_pc, hf, State.raiseHalt_eq]

theorem dispatcherStep_waiting {s : State} {r : Reg} (hm : s.mode = .waitingForKey r) :
    dispatcherStep s = .next (waitPoll r s.clearOutputs.start) := by
  simp only [dispatcherStep, hm]

theorem dispatcherStep_halted {s : State} {code : HaltCode} (hm : s.mode = .halted code) :
    dispatcherStep s = .next s.clearOutputs := by
  simp only [dispatcherStep, hm]

/-- A dispatcher step always answers a next state. -/
theorem dispatcherStep_next (s : State) : ∃ t, dispatcherStep s = .next t := by
  cases hm : s.mode with
  | halted code => exact ⟨_, dispatcherStep_halted hm⟩
  | waitingForKey r => exact ⟨_, dispatcherStep_waiting hm⟩
  | running =>
    cases hf : fetchError s.pc with
    | some code => exact ⟨_, dispatcherStep_badPc hm hf⟩
    | none =>
      cases hd : decode s.fetchWord with
      | instr i =>
        obtain ⟨t, ht⟩ := exec_next i s.clearOutputs.start
        exact ⟨t, (dispatcherStep_instr hm hf hd).trans ht⟩
      | unknown op => exact ⟨_, dispatcherStep_unknown hm hf hd⟩

/-- The fetch check of a PC that is not fetchable: range before alignment (20_memory.md R65). -/
theorem fetchError_of_not_fetchable {a : Word} (h : ¬ Fetchable a) :
    fetchError a = some (if 0xFFE < a.toNat then .pcOutOfRange else .pcMisaligned) := by
  unfold fetchError
  split_ifs with hrange hodd
  · rfl
  · rfl
  · exact absurd ⟨by omega, by omega⟩ h

/-! ### Where MODE changes -/

/-- An instruction leaves MODE alone, but for a CALL on a full stack, a RET on an empty one, and LD Vx, K. -/
theorem exec_mode_cases {i : Instr} {s t : State} (h : exec i s = .next t) :
    t.mode = s.mode ∨
    (∃ nnn, i = .call nnn ∧ s.sp.val = 16 ∧ t = s.setMode (.halted .stackOverflow)) ∨
    (i = .ret ∧ s.sp.val = 0 ∧ t = s.setMode (.halted .stackUnderflow)) ∨
    (∃ x, i = .ldVxK x ∧ t = s.latchKeys.setMode (.waitingForKey x)) := by
  cases i with
  | call nnn =>
    obtain ⟨hsp, rfl⟩ | ⟨-, rfl⟩ := execCall_cases h
    · exact .inr (.inl ⟨nnn, rfl, hsp, rfl⟩)
    · exact .inl (State.push_mode s s.pc)
  | ret =>
    obtain ⟨hsp, rfl⟩ | ⟨-, rfl⟩ := execRet_cases h
    · exact .inr (.inr (.inl ⟨rfl, hsp, rfl⟩))
    · exact .inl rfl
  | ldVxK x => exact .inr (.inr (.inr ⟨x, rfl, (next_inj h).symm⟩))
  | _ => exact .inl (exec_frame h .mode (by simp [instrWrites]))

/-! ### What a dispatcher step may change -/

/-- The parts that a step may write without an instruction that writes them: by the wait poll (45_timers_keys.md R276), a
halt, an unknown word, and the step's own bookkeeping. -/
def pollWrites (p : Part) : Prop :=
  (∃ r, p = .v r) ∨ p = .pc ∨ p = .mode ∨ p = .keyPrev ∨ p = .fbStrobe ∨ p = .unk ∨ p = .started

theorem unchanged_clearOutputs_start (s : State) :
    Unchanged s s.clearOutputs.start (fun p => p = .fbStrobe ∨ p = .unk ∨ p = .started) :=
  ((unchanged_clearOutputs s).mono fun _ hp => hp.imp_right .inl).trans
    ((unchanged_start _).mono fun _ hp => .inr (.inr hp))

/-- The bookkeeping of a step that takes its event off the list. -/
theorem unchanged_popEvent_start (s : State) : Unchanged s s.popEvent.clearOutputs.start
    (fun p => p = .fbStrobe ∨ p = .unk ∨ p = .started ∨ p = .events) :=
  ((unchanged_popEvent s).mono (by rintro p rfl; simp)).trans
    ((unchanged_clearOutputs_start _).mono (by rintro p (rfl | rfl | rfl) <;> simp))

/-- The wait poll: V[t], PC, MODE and KEYPREV are all it writes (45_timers_keys.md R276). -/
theorem unchanged_waitPoll (r : Reg) (s : State) :
    Unchanged s (waitPoll r s) (fun p => p = .v r ∨ p = .pc ∨ p = .mode ∨ p = .keyPrev) := by
  have hlatch := (unchanged_latchKeys s).mono (written' := fun p => p = .v r ∨ p = .pc ∨ p = .mode ∨ p = .keyPrev)
    fun _ hp => .inr (.inr (.inr hp))
  obtain ⟨-, hpoll⟩ | ⟨k, -, hpoll⟩ := waitPoll_cases r s
  · rw [hpoll]
    exact hlatch
  · rw [hpoll]
    exact (hlatch.trans ((unchanged_setReg_setPc _ r _ _).mono fun _ hp => hp.imp_right .inl)).trans
      ((unchanged_setMode _ _).mono fun _ hp => .inr (.inr (.inl hp)))

theorem Part.same_trans {s t u : State} {p : Part} (hst : p.same s t) (htu : p.same t u) : p.same s u := by
  cases p <;> exact htu.trans hst

/-- What an instruction writes does not depend on the outputs and the loader's window. -/
theorem instrWrites_clearOutputs_start (s : State) (i : Instr) : instrWrites s.clearOutputs.start i = instrWrites s i := by
  cases i <;> rfl

/-- What a dispatcher step changed beyond that, the instruction at PC wrote. -/
theorem dispatcherStep_changed {s t : State} {p : Part} (h : dispatcherStep s = .next t) (hp : ¬ p.same s t)
    (hpoll : ¬ pollWrites p) :
    ∃ i, s.mode = .running ∧ Fetchable s.pc ∧ decode s.fetchWord = .instr i ∧ instrWrites s i p ∧
      exec i s.clearOutputs.start = .next t := by
  have hstart : Unchanged s s.clearOutputs.start pollWrites :=
    (unchanged_clearOutputs_start s).mono (by rintro p (rfl | rfl | rfl) <;> simp [pollWrites])
  have hno (hframe : Unchanged s t pollWrites) : False := hp (hframe p hpoll)
  obtain ⟨_, -, rfl⟩ | ⟨r, -, rfl⟩ | ⟨_, -, -, rfl⟩ | ⟨i, hm, hf, hd, hexec⟩ | ⟨op, -, -, -, rfl⟩ := dispatcherStep_cases h
  · exact (hno ((unchanged_clearOutputs s).mono (by rintro p (rfl | rfl) <;> simp [pollWrites]))).elim
  · exact (hno (hstart.trans ((unchanged_waitPoll r _).mono
      (by rintro p (rfl | rfl | rfl | rfl) <;> simp [pollWrites])))).elim
  · exact (hno (hstart.trans ((unchanged_setMode _ _).mono (by rintro p rfl; simp [pollWrites])))).elim
  · have hchanged : ¬ p.same s.clearOutputs.start t := fun hsame => hp (Part.same_trans (hstart p hpoll) hsame)
    have hwrites := instrWrites_of_changed hexec hchanged
    rw [instrWrites_clearOutputs_start] at hwrites
    exact ⟨i, hm, fetchError_none.mp hf, hd, hwrites, hexec⟩
  · exact (hno (hstart.trans (((unchanged_emitUnknown _ op).setPc _).mono
      (by rintro p (rfl | rfl) <;> simp [pollWrites])))).elim

/-! ### What the host's events may change (10_state.md R42, 60_exceptions.md) -/

/-- The parts that an event may write; a step and a reset may write any. -/
def hostWrites (e : HostEvent) (p : Part) : Prop :=
  match e with
  | .step | .rst => True
  | .tick => p = .dt ∨ p = .st ∨ p = .fbStrobe ∨ p = .unk
  | .keyWrite _ => p = .key ∨ p = .fbStrobe ∨ p = .unk
  | .hostRead => p = .fbStrobe ∨ p = .unk
  | .load a _ => p = .mem a ∨ p = .fbStrobe ∨ p = .unk
  | .loadRom _ => (∃ a, p = .mem a) ∨ p = .fbStrobe ∨ p = .unk

theorem unchanged_tick (s : State) : Unchanged s (tick s) (hostWrites .tick) := by
  obtain ⟨-, htick⟩ | ⟨hmode, -⟩ := tick_cases s
  · rw [htick]
    exact (unchanged_clearOutputs s).mono fun _ hp => .inr (.inr hp)
  · obtain ⟨-, -, hframe⟩ := tick_spec hmode
    exact hframe

theorem unchanged_keyWrite (k : BitVec 16) (s : State) : Unchanged s (keyWrite k s) (hostWrites (.keyWrite k)) := by
  intro p hp
  cases p with
  | key => exact absurd (.inl rfl) hp
  | fbStrobe => exact absurd (.inr (.inl rfl)) hp
  | unk => exact absurd (.inr (.inr rfl)) hp
  | _ => rfl

theorem unchanged_load (s : State) (a : Addr) (b : Byte) :
    Unchanged s (s.clearOutputs.writeMem a b) (hostWrites (.load a b)) :=
  ((unchanged_clearOutputs s).mono fun _ => .inr).trans ((unchanged_writeMem _ a b).mono fun _ => .inl)

theorem unchanged_clearOutputs_setMem (s : State) {m : Memory} {written : Addr → Prop}
    (h : ∀ a, ¬ written a → m.read a = s.mem.read a) :
    Unchanged s (s.clearOutputs.setMem m) (fun p => (∃ a, written a ∧ p = .mem a) ∨ p = .fbStrobe ∨ p = .unk) :=
  ((unchanged_clearOutputs s).mono fun _ => .inr).trans
    ((unchanged_setMem s.clearOutputs (written := written) h).mono fun _ => .inl)

/-- The frame of an event. -/
theorem applyEvent_frame {e : HostEvent} {s t : State} (h : applyEvent e s = .next t) : Unchanged s t (hostWrites e) := by
  obtain ⟨rfl, -⟩ | ⟨rfl, rfl⟩ | ⟨k, rfl, rfl⟩ | ⟨rfl, rfl⟩ | ⟨a, b, rfl, -, rfl⟩ | ⟨bs, rfl, -, -, rfl⟩ | ⟨rfl, rfl⟩ :=
    applyEvent_cases h
  · exact fun _ hp => absurd trivial hp
  · exact unchanged_tick s
  · exact unchanged_keyWrite k s
  · exact unchanged_clearOutputs s
  · exact unchanged_load s a b
  · refine (unchanged_clearOutputs_setMem s (written := fun _ => True) fun _ ha => absurd trivial ha).mono fun _ hp => ?_
    exact hp.imp_left fun ⟨a, _, ha⟩ => ⟨a, ha⟩
  · exact fun _ hp => absurd trivial hp

/-! ### The obligations -/

/-- Settles O8: the step takes its event off the list, and the dispatcher runs `exec` after its own bookkeeping. -/
theorem stepRunsTheDecodedInstruction : Obligations.StepRunsTheDecodedInstruction := by
  intro s i he hm hpc hd
  rw [step_of_nextEvent_step he, dispatcherStep_instr (s := s.popEvent) hm (fetchError_none.mpr hpc) hd]
  rfl

/-- Settles O9: SYS is the unknown-opcode policy on the word 0nnn. -/
theorem sysLogsAndSkips : Obligations.SysLogsAndSkips := by
  intro nnn s
  have hword : zextAddr nnn = BitVec.ofNat 16 nnn.toNat := (BitVec.ofNat_toNat 16 nnn).symm
  exact ⟨_, rfl, hword ▸ rfl, rfl, exec_frame (i := .sys nnn) rfl⟩

/-- Settles O10: the policy of R135 logs the word with the PC it was fetched at; what else changes is the step's own
bookkeeping. -/
theorem unknownOpcodeIsLoggedAndSkipped : Obligations.UnknownOpcodeIsLoggedAndSkipped := by
  intro s op he hm hpc hd
  rw [step_of_nextEvent_step he]
  refine ⟨_, dispatcherStep_unknown (s := s.popEvent) hm (fetchError_none.mpr hpc) hd, rfl, rfl, rfl, rfl, rfl, ?_⟩
  exact ((unchanged_popEvent_start s).mono (by rintro p (rfl | rfl | rfl | rfl) <;> simp)).trans
    (((unchanged_emitUnknown _ _).setPc _).mono (by rintro p (rfl | rfl) <;> simp))

/-- Settles O11: every event but the loader's answers a next state. -/
theorem stepAlwaysAnswersOutsideTheLoader : Obligations.StepAlwaysAnswersOutsideTheLoader := by
  intro s hload hrom
  unfold step
  cases he : s.nextEvent with
  | step => exact dispatcherStep_next _
  | tick => exact ⟨_, rfl⟩
  | keyWrite k => exact ⟨_, rfl⟩
  | hostRead => exact ⟨_, rfl⟩
  | load a b => exact absurd he (hload a b)
  | loadRom image => exact absurd he (hrom image)
  | rst => exact ⟨_, rfl⟩

/-- Settles O12: the fetch check tests the range first, and a halt writes MODE only. -/
theorem badPcHaltsAtFetch : Obligations.BadPcHaltsAtFetch := by
  intro s he hm hpc
  rw [step_of_nextEvent_step he]
  refine ⟨_, dispatcherStep_badPc (s := s.popEvent) hm (fetchError_of_not_fetchable hpc), ?_, ?_, rfl, rfl, ?_⟩
  · intro hrange
    exact congrArg Mode.halted (if_pos hrange)
  · intro hrange
    exact congrArg Mode.halted (if_neg (Nat.not_lt.mpr hrange))
  · exact ((unchanged_popEvent_start s).mono fun _ => .inr).trans ((unchanged_setMode _ _).mono fun _ => .inl)

/-- Settles O13: a Running step halts by the fetch check, by CALL or by RET, and each halts by writing MODE. -/
theorem haltIsPrecise : Obligations.HaltIsPrecise := by
  intro s t code hm h hhalt
  obtain ⟨_, hm', -⟩ | ⟨_, hm', -⟩ | ⟨_, -, -, rfl⟩ | ⟨i, -, -, -, hexec⟩ | ⟨_, -, -, -, rfl⟩ := dispatcherStep_cases h
  · simp [hm] at hm'
  · simp [hm] at hm'
  · obtain rfl := Mode.halted.inj hhalt
    rfl
  · obtain hsame | ⟨_, -, -, rfl⟩ | ⟨-, -, rfl⟩ | ⟨_, -, rfl⟩ := exec_mode_cases hexec
    · have hrun : t.mode = .running := hsame.trans hm
      simp [hrun] at hhalt
    · obtain rfl := Mode.halted.inj hhalt
      rfl
    · obtain rfl := Mode.halted.inj hhalt
      rfl
    · cases hhalt
  · have hrun : s.mode = .halted code := hhalt
    simp [hm] at hrun

/-- Settles O14: a Halted CORE answers a step request with its outputs cleared, no other event but reset writes MODE, and
reset is Running. -/
theorem onlyResetLeavesHalted : Obligations.OnlyResetLeavesHalted := by
  intro s code hm
  refine ⟨dispatcherStep_halted hm, fun e t h hrst => ?_, _, rfl, rfl⟩
  have hframe := applyEvent_frame h .mode
  cases e with
  | step =>
    obtain rfl := next_inj ((dispatcherStep_halted hm).symm.trans h)
    exact hm
  | rst => exact absurd rfl hrst
  | _ => exact (hframe (by simp [hostWrites])).trans hm

end Sys2Proof.Machine
end

section
/-! The register family, continued (41_register_alu.md): the logic instructions, the flag instructions, RND. -/

namespace Sys2Proof.Machine

/-! ### The flag instructions (R156 to R160) -/

/-- An instruction that writes V[x] and then VF: VF ends as the flag, V[x] as the result unless it is VF (D13), and the PC
source is SEQ. -/
theorem State.setRegFlag_seq_spec (s : State) (x : Reg) (b : Byte) (f : Bool) :
    (s.setRegFlag x b f).seq.reg vf = flagByte f ∧ (x ≠ vf → (s.setRegFlag x b f).seq.reg x = b) ∧
      (s.setRegFlag x b f).seq.pc = s.pc + 2#16 := by
  refine ⟨State.reg_setReg_same _ _ _, fun hx => ?_, rfl⟩
  exact (State.setRegFlag_reg s x b f x).trans ((if_neg hx).trans (if_pos rfl))

theorem flagByte_eq_ite (f : Bool) : flagByte f = if f = true then 1#8 else 0#8 := rfl

theorem flagByte_zero_or_one (f : Bool) : flagByte f = 0#8 ∨ flagByte f = 1#8 := by
  cases f
  · exact .inl rfl
  · exact .inr rfl

theorem flagByte_toNat (f : Bool) : (flagByte f).toNat = f.toNat := by
  cases f <;> rfl

theorem flagByte_carry_iff (a b : Byte) : flagByte (carry a b) = 1#8 ↔ a.toNat + b.toNat > 255 := by
  rw [flagByte_eq_one, carry, decide_eq_true_iff]

theorem flagByte_noBorrow (a b : Byte) : flagByte (noBorrow a b) = if b.toNat ≤ a.toNat then 1#8 else 0#8 := by
  simp only [flagByte_eq_ite, noBorrow, decide_eq_true_iff, ge_iff_le]

/-- The difference and the subtrahend add up to the minuend, modulo 256. -/
theorem sub_toNat_add (a b : Byte) : ((a - b).toNat + b.toNat) % 256 = a.toNat := by
  have ha := a.isLt
  have hb := b.isLt
  rw [BitVec.toNat_sub]
  omega

/-- A flag taken from bit `k` of a byte, as a number. -/
theorem flagByte_getLsbD_toNat (a : Byte) (k : Nat) : (flagByte (a.getLsbD k)).toNat = a.toNat / 2 ^ k % 2 :=
  (flagByte_toNat _).trans (Nat.toNat_testBit a.toNat k)

theorem flagByte_bitOutRight_toNat (a : Byte) : (flagByte (bitOutRight a)).toNat = a.toNat % 2 := by
  rw [bitOutRight, flagByte_getLsbD_toNat]
  omega

theorem flagByte_bitOutLeft_toNat (a : Byte) : (flagByte (bitOutLeft a)).toNat = a.toNat / 128 := by
  have ha := a.isLt
  rw [bitOutLeft, flagByte_getLsbD_toNat]
  omega

/-- A right shift and the bit shifted out recompose the byte. -/
theorem shiftRight_recompose (a : Byte) : (a >>> 1).toNat * 2 + (flagByte (bitOutRight a)).toNat = a.toNat := by
  rw [flagByte_bitOutRight_toNat, BitVec.toNat_ushiftRight, Nat.shiftRight_one]
  omega

/-- A left shift and the bit shifted out recompose the byte's double. -/
theorem shiftLeft_recompose (a : Byte) : (flagByte (bitOutLeft a)).toNat * 256 + (a <<< 1).toNat = a.toNat * 2 := by
  have ha := a.isLt
  rw [flagByte_bitOutLeft_toNat, BitVec.toNat_shiftLeft, Nat.shiftLeft_eq]
  omega

/-! ### The obligations -/

/-- Settles O18: each writes the bitwise combination of V[x] and V[y] into V[x]. -/
theorem logicOperatesBitByBit : Obligations.LogicOperatesBitByBit := by
  intro x y s
  refine ⟨?_, ?_, ?_⟩
  · obtain ⟨hreg, hpc, hframe⟩ := s.setReg_seq_spec x (s.reg x ||| s.reg y)
    exact ⟨_, rfl, hpc, fun k _ => by rw [hreg, BitVec.getLsbD_or], hframe⟩
  · obtain ⟨hreg, hpc, hframe⟩ := s.setReg_seq_spec x (s.reg x &&& s.reg y)
    exact ⟨_, rfl, hpc, fun k _ => by rw [hreg, BitVec.getLsbD_and], hframe⟩
  · obtain ⟨hreg, hpc, hframe⟩ := s.setReg_seq_spec x (s.reg x ^^^ s.reg y)
    exact ⟨_, rfl, hpc, fun k _ => by rw [hreg, BitVec.getLsbD_xor, Bool.bne_eq_xor], hframe⟩

/-- Settles O19: VF, written last, holds the carry of the unbounded sum; ADD Vx, byte writes V[x] only. -/
theorem carryIsTheUnboundedSum : Obligations.CarryIsTheUnboundedSum := by
  intro x y s
  refine ⟨?_, fun kk => ?_⟩
  · obtain ⟨hflag, hsum, hpc⟩ := s.setRegFlag_seq_spec x (s.reg x + s.reg y) (carry (s.reg x) (s.reg y))
    refine ⟨_, rfl, hpc, ?_, ?_, fun hx => ?_, exec_frame (i := .addReg x y) rfl⟩
    · rw [hflag, flagByte_carry_iff]
    · rw [hflag]
      exact flagByte_zero_or_one _
    · rw [hsum hx, BitVec.toNat_add]
  · obtain ⟨hreg, -, -⟩ := s.setReg_seq_spec x (s.reg x + kk)
    refine ⟨_, rfl, ?_, fun hx => State.reg_setReg_other s _ hx⟩
    rw [hreg, BitVec.toNat_add]

/-- Settles O20: both write a wrapped difference, then the flag of its borrow. -/
theorem subtractSetsNotBorrow : Obligations.SubtractSetsNotBorrow := by
  intro x y s
  refine ⟨?_, ?_⟩
  · obtain ⟨hflag, hdiff, hpc⟩ := s.setRegFlag_seq_spec x (s.reg x - s.reg y) (noBorrow (s.reg x) (s.reg y))
    refine ⟨_, rfl, hpc, hflag.trans (flagByte_noBorrow _ _), fun hx => ?_, exec_frame (i := .sub x y) rfl⟩
    rw [hdiff hx, sub_toNat_add]
  · obtain ⟨hflag, hdiff, hpc⟩ := s.setRegFlag_seq_spec x (s.reg y - s.reg x) (noBorrow (s.reg y) (s.reg x))
    refine ⟨_, rfl, hpc, hflag.trans (flagByte_noBorrow _ _), fun hx => ?_, exec_frame (i := .subn x y) rfl⟩
    rw [hdiff hx, sub_toNat_add]

/-- Settles O21: the result and the bit shifted out recompose V[x], or its double. -/
theorem shiftsMoveOneBitIntoVf : Obligations.ShiftsMoveOneBitIntoVf := by
  intro x y s
  refine ⟨?_, ?_⟩
  · obtain ⟨hflag, hshift, hpc⟩ := s.setRegFlag_seq_spec x (s.reg x >>> 1) (bitOutRight (s.reg x))
    refine ⟨_, rfl, hpc, ?_, fun hx => ?_, exec_frame (i := .shr x y) rfl⟩
    · rw [hflag, flagByte_bitOutRight_toNat]
    · rw [hshift hx, hflag, shiftRight_recompose]
  · obtain ⟨hflag, hshift, hpc⟩ := s.setRegFlag_seq_spec x (s.reg x <<< 1) (bitOutLeft (s.reg x))
    refine ⟨_, rfl, hpc, ?_, fun hx => ?_, exec_frame (i := .shl x y) rfl⟩
    · rw [hflag, flagByte_bitOutLeft_toNat]
    · rw [hshift hx, hflag, shiftLeft_recompose]

/-- Settles O22: the byte drawn at the counter is masked, and the counter moves on. -/
theorem randomMasksAFreeDraw : Obligations.RandomMasksAFreeDraw := by
  intro x kk s
  obtain ⟨hreg, hpc, -⟩ := s.nextDraw.setReg_seq_spec x (s.rndByte &&& kk)
  refine ⟨_, rfl, hpc, hreg, ?_, rfl, exec_frame (i := .rnd x kk) rfl⟩
  rintro rfl
  rw [hreg, BitVec.and_zero]

end Sys2Proof.Machine
end

section
/-! The control-flow family, continued (42_control_flow.md): the jumps, CALL with the RET that answers it, the skips on two
registers, and who writes the stack. -/

namespace Sys2Proof.Machine

/-! ### Jump targets (R190, R193) -/

theorem zextByte_toNat (b : Byte) : (zextByte b).toNat = b.toNat :=
  BitVec.toNat_setWidth_of_le (by decide)

/-- The target of JP V0 is the unmasked sum, which fits in 16 bits (D10). -/
theorem jpV0_target_toNat (nnn : Addr) (b : Byte) : (zextAddr nnn + zextByte b).toNat = nnn.toNat + b.toNat := by
  have hn := nnn.isLt
  have hb := b.isLt
  rw [BitVec.toNat_add, zextAddr_toNat, zextByte_toNat]
  omega

/-! ### The stack (R198) -/

/-- Only CALL writes a slot, the one at SP. -/
theorem call_of_writes_stack {s : State} {i : Instr} {j : Fin 16} (h : instrWrites s i (.stack j)) :
    (∃ nnn, i = .call nnn) ∧ j.val = s.sp.val := by
  cases i with
  | call nnn =>
    refine ⟨⟨nnn, rfl⟩, ?_⟩
    simpa [instrWrites] using h
  | _ => simp [instrWrites] at h

/-- A CALL that changed the slot at SP put its own address there. -/
theorem execCall_slot {nnn : Addr} {s t : State} {j : Fin 16} (h : execCall nnn s = .next t) (hj : j.val = s.sp.val) :
    t.stack[j.val] = s.pc := by
  obtain ⟨hfull, -⟩ | ⟨hroom, rfl⟩ := execCall_cases h
  · have hlt := j.isLt
    omega
  · obtain ⟨-, hslot⟩ := State.push_spec s s.pc hroom
    exact (hslot j).trans (if_pos hj.symm)

/-! ### The obligations -/

/-- Settles O23: JP goes to its operand, JP V0 to the unmasked sum, which is at most 0xFFF + 0xFF. -/
theorem jumpsSetPcDirectly : Obligations.JumpsSetPcDirectly := by
  intro nnn s
  refine ⟨⟨_, rfl, zextAddr_toNat nnn, unchanged_setPc s _⟩, _, rfl, jpV0_target_toNat nnn _, ?_, unchanged_setPc s _⟩
  have htarget := jpV0_target_toNat nnn (s.reg 0)
  have hn := nnn.isLt
  have hb := (s.reg 0).isLt
  exact htarget ▸ (by omega)

/-- Settles O26: RET pops what CALL pushed, and neither writes a slot below SP. -/
theorem callThenRetComesBack : Obligations.CallThenRetComesBack := by
  intro nnn s hroom
  obtain ⟨hsp, hslot⟩ := State.push_spec s s.pc hroom
  have hpos : 0 < ((s.push s.pc).setPc (zextAddr nnn)).sp.val := by
    rw [State.setPc_sp, hsp]
    exact Nat.succ_pos _
  have htop : ((s.push s.pc).setPc (zextAddr nnn)).top = s.pc := State.top_push s s.pc hroom
  refine ⟨_, _, exec_call_push hroom, exec_ret_pop hpos, congrArg (· + 2#16) htop, Fin.ext ?_, fun j hj => ?_⟩
  · rw [State.setPc_sp, State.drop_sp, State.setPc_sp, hsp, Nat.add_sub_cancel]
  · exact (hslot j).trans (if_neg (Nat.ne_of_gt hj))

/-- Settles O28: both are skips, on the equality of V[x] and V[y] and on its negation. -/
theorem registerSkipsCompare : Obligations.RegisterSkipsCompare := by
  intro x y s
  refine ⟨?_, ?_⟩
  · obtain ⟨hskip, hseq, hframe⟩ := s.skipIf_spec (s.reg x == s.reg y)
    refine ⟨_, rfl, fun heq => hskip (beq_iff_eq.mpr heq), fun hne => hseq (beq_eq_false_iff_ne.mpr hne), ?_, hframe⟩
    rintro rfl
    exact hskip (beq_self_eq_true _)
  · obtain ⟨hskip, hseq, hframe⟩ := s.skipIf_spec (s.reg x != s.reg y)
    refine ⟨_, rfl, fun hne => hskip (bne_iff_ne.mpr hne), fun heq => hseq (bne_eq_false_iff_eq.mpr heq), ?_, hframe⟩
    rintro rfl
    exact hseq (bne_self_eq_false _)

/-- Settles O29: a changed slot was written by the instruction at PC, so by a CALL. -/
theorem onlyCallWritesTheStack : Obligations.OnlyCallWritesTheStack := by
  intro s t j h hne
  obtain ⟨i, hm, -, hd, hwrites, hexec⟩ := dispatcherStep_changed (p := .stack j) h hne (by simp [pollWrites])
  obtain ⟨⟨nnn, rfl⟩, hj⟩ := call_of_writes_stack hwrites
  exact ⟨hm, hj, ⟨nnn, hd⟩, execCall_slot hexec hj⟩

end Sys2Proof.Machine
end

section
/-! The index register and memory family (43_index_memory.md, 20_memory.md): arithmetic on I, the decimal store, the dump
and the load of registers, stores into the next word, and the canonical form of memory. -/

namespace Sys2Proof.Machine

/-! ### Arithmetic on I (R221, R222) -/

theorem lowNibble_val (b : Byte) : (lowNibble b).val = b.toNat % 16 := by
  have hand : (b &&& 0x0F#8).toNat = b.toNat % 16 := by
    rw [BitVec.toNat_and]
    exact Nat.and_two_pow_sub_one_eq_mod b.toNat 4
  rw [lowNibble, Fin.val_ofNat, hand, Nat.mod_mod]

theorem glyphAddr_toNat (b : Byte) : (glyphAddr b).toNat = fontBase + 5 * (b.toNat % 16) := by
  have hbase : fontBase = 0 := rfl
  rw [glyphAddr, lowNibble_val, BitVec.toNat_ofNat]
  omega

/-- Settles O31: the sum of two words is the sum of their numbers modulo 2^16, and the glyph address is far below. -/
theorem indexArithmetic : Obligations.IndexArithmetic := by
  intro x s
  refine ⟨?_, ?_⟩
  · obtain ⟨hi, hpc, hframe⟩ := s.setI_seq_spec (s.i + zextByte (s.reg x))
    refine ⟨_, rfl, ?_, hpc, hframe⟩
    rw [hi, BitVec.toNat_add, zextByte_toNat]
  · obtain ⟨hi, hpc, hframe⟩ := s.setI_seq_spec (glyphAddr (s.reg x))
    refine ⟨_, rfl, ?_, hpc, hframe⟩
    rw [hi, glyphAddr_toNat]

/-! ### What the stores leave in memory (R223, R224) -/

/-- LD B, Vx: its three digits, as numbers (R223, D17). -/
theorem exec_ldB_spec (x : Reg) (s : State) : ∃ t, exec (.ldB x) s = .next t ∧ t.pc = s.pc + 2#16 ∧
    (t.readMem (iAddr s.i 0)).toNat = (s.reg x).toNat / 100 ∧
    (t.readMem (iAddr s.i 1)).toNat = (s.reg x).toNat / 10 % 10 ∧
    (t.readMem (iAddr s.i 2)).toNat = (s.reg x).toNat % 10 := by
  obtain ⟨t, hexec, hpc, hread⟩ := execLdB_readMem x s
  have h10 : iAddr s.i 1 ≠ iAddr s.i 0 := iAddr_ne (by decide) (by decide) (by decide)
  have h20 : iAddr s.i 2 ≠ iAddr s.i 0 := iAddr_ne (by decide) (by decide) (by decide)
  have h21 : iAddr s.i 2 ≠ iAddr s.i 1 := iAddr_ne (by decide) (by decide) (by decide)
  refine ⟨t, hexec, hpc, ?_, ?_, ?_⟩
  · rw [hread, if_pos rfl, hundreds_toNat]
  · rw [hread, if_neg h10, if_pos rfl, tens_toNat]
  · rw [hread, if_neg h20, if_neg h21, if_pos rfl, units_toNat]

/-- LD [I], Vx: the bytes it stores; I stays (R224, D16). -/
theorem exec_storeRegs_spec (x : Reg) (s : State) : ∃ t, exec (.storeRegs x) s = .next t ∧ t.pc = s.pc + 2#16 ∧ t.i = s.i ∧
    ∀ r : Reg, r.val ≤ x.val → t.readMem (iAddr s.i r.val) = s.reg r := by
  obtain ⟨m, hm⟩ := s.storeUpTo_eq (x.val + 1)
  refine ⟨_, rfl, ?_, ?_, fun r hr => ?_⟩
  · rw [hm]
    rfl
  · rw [hm]
    rfl
  · have hinside := s.readMem_storeUpTo_inside (n := x.val + 1) x.isLt (Nat.lt_succ_of_le hr)
    rwa [Fin.ofNat_val_eq_self] at hinside

/-- LD Vx, [I]: the registers it loads (R225). -/
theorem exec_loadRegs_spec (x : Reg) (s : State) : ∃ t, exec (.loadRegs x) s = .next t ∧ t.pc = s.pc + 2#16 ∧
    ∀ r : Reg, r.val ≤ x.val → t.reg r = s.readMem (iAddr s.i r.val) := by
  obtain ⟨v, hv⟩ := s.loadUpTo_eq (x.val + 1)
  refine ⟨_, rfl, ?_, fun r hr => ?_⟩
  · rw [hv]
    rfl
  · exact (s.reg_loadUpTo (n := x.val + 1) x.isLt r).trans (if_pos (Nat.lt_succ_of_le hr))

/-- Settles O32: hundreds, tens and units recompose a number below 256. -/
theorem bcdStoresThreeDigits : Obligations.BcdStoresThreeDigits := by
  intro x s
  obtain ⟨t, hexec, hpc, h0, h1, h2⟩ := exec_ldB_spec x s
  have hlt := (s.reg x).isLt
  refine ⟨t, hexec, hpc, ?_, ?_, ?_, ?_, exec_frame hexec⟩
  · omega
  · omega
  · omega
  · omega

/-- Settles O33: the bytes the dump stores, and the frame of `exec`. -/
theorem dumpStoresRegisters : Obligations.DumpStoresRegisters := by
  intro x s
  obtain ⟨t, hexec, hpc, -, hstored⟩ := exec_storeRegs_spec x s
  exact ⟨t, hexec, hpc, hstored, exec_frame hexec⟩

/-- Settles O34: the registers the load writes, and the frame of `exec`. -/
theorem loadReadsRegisters : Obligations.LoadReadsRegisters := by
  intro x s
  obtain ⟨t, hexec, hpc, hloaded⟩ := exec_loadRegs_spec x s
  exact ⟨t, hexec, hpc, hloaded, exec_frame hexec⟩

/-- Settles O35: the load reads the bytes that the dump stored, at the same addresses. -/
theorem dumpThenLoadRestores : Obligations.DumpThenLoadRestores := by
  intro x s t u w hdump hmem hi hload r hr
  obtain ⟨t', hdump', -, hti, hstored⟩ := exec_storeRegs_spec x s
  obtain rfl := next_inj (hdump'.symm.trans hdump)
  obtain ⟨w', hload', -, hloaded⟩ := exec_loadRegs_spec x u
  obtain rfl := next_inj (hload'.symm.trans hload)
  calc w'.reg r = u.readMem (iAddr u.i r.val) := hloaded r hr
    _ = t'.readMem (iAddr s.i r.val) := by rw [State.readMem, State.readMem, hmem, hi, hti]
    _ = s.reg r := hstored r hr

/-! ### Stores into the next word (20_memory.md R71, D35) -/

/-- A store that leaves the stored bytes where it stored them and the others as they were is seen by the next fetch, byte by
byte. -/
theorem fetchesStored_intro {s t : State} {stored : Addr → Byte → Prop}
    (hin : ∀ a b, stored a b → (t.readMem a).toNat = b.toNat)
    (hout : ∀ a, (∀ b, ¬ stored a b) → t.readMem a = s.readMem a) : FetchesStored s t stored := by
  intro hi lo hhi hlo
  have hlt := (t.readMem lo).isLt
  have hword : t.fetchWord.toNat = (t.readMem hi).toNat * 256 + (t.readMem lo).toNat := by
    rw [State.fetchWord_toNat, pcAddr_eq (k := 0) hhi, pcAddr_eq hlo]
  have hhigh : t.fetchWord.toNat / 256 = (t.readMem hi).toNat := by omega
  have hlow : t.fetchWord.toNat % 256 = (t.readMem lo).toNat := by omega
  rw [hhigh, hlow]
  exact ⟨hin hi, fun h => congrArg _ (hout hi h), hin lo, fun h => congrArg _ (hout lo h)⟩

/-- Settles O36: what the two instructions store and what they leave, byte by byte, is what the fetch reads. -/
theorem storedCodeIsFetched : Obligations.StoredCodeIsFetched := by
  intro x s
  refine ⟨?_, ?_⟩
  · obtain ⟨t, hexec, -, -, hstored⟩ := exec_storeRegs_spec x s
    refine ⟨t, hexec, fun _ => fetchesStored_intro ?_ fun a hno => exec_frame hexec (.mem a) ?_⟩
    · rintro a b ⟨r, hr, rfl, rfl⟩
      rw [hstored r hr]
    · rintro (⟨k, hk, ha⟩ | ha)
      · exact hno _ ⟨⟨k, Nat.lt_of_le_of_lt hk x.isLt⟩, hk, Part.mem.inj ha, rfl⟩
      · cases ha
  · obtain ⟨t, hexec, -, h0, h1, h2⟩ := exec_ldB_spec x s
    refine ⟨t, hexec, fun _ => fetchesStored_intro ?_ fun a hno => exec_frame hexec (.mem a) ?_⟩
    · rintro a b (⟨rfl, hb⟩ | ⟨rfl, hb⟩ | ⟨rfl, hb⟩)
      · exact h0.trans hb.symm
      · exact h1.trans hb.symm
      · exact h2.trans hb.symm
    · rintro (⟨k, hk, ha⟩ | ha)
      · obtain rfl := Part.mem.inj ha
        interval_cases k
        · exact hno _ (.inl ⟨rfl, h0⟩)
        · exact hno _ (.inr (.inl ⟨rfl, h1⟩))
        · exact hno _ (.inr (.inr ⟨rfl, h2⟩))
      · cases ha

/-! ### Who writes memory (20_memory.md R67) -/

theorem store_of_writes_mem {s : State} {i : Instr} {a : Addr} (h : instrWrites s i (.mem a)) :
    (∃ x, i = .ldB x ∧ ∃ k < 3, a = iAddr s.i k) ∨ (∃ x, i = .storeRegs x ∧ ∃ k ≤ x.val, a = iAddr s.i k) := by
  cases i with
  | ldB x => exact .inl ⟨x, rfl, by simpa [instrWrites] using h⟩
  | storeRegs x => exact .inr ⟨x, rfl, by simpa [instrWrites] using h⟩
  | _ => simp [instrWrites] at h

/-- Settles O37: a changed byte was written by the instruction at PC. -/
theorem onlyStoresWriteMemory : Obligations.OnlyStoresWriteMemory := by
  intro s t a h hne
  obtain ⟨i, hm, -, hd, hwrites, -⟩ := dispatcherStep_changed (p := .mem a) h hne (by simp [pollWrites])
  obtain ⟨x, rfl, hk⟩ | ⟨x, rfl, hk⟩ := store_of_writes_mem hwrites
  · exact ⟨hm, .inl ⟨x, hd, hk⟩⟩
  · exact ⟨hm, .inr ⟨x, hd, hk⟩⟩

/-! ### The canonical form (log 15) -/

/-- The head of a canonical list, and the rest above it. -/
theorem Memory.wfFrom_cons {lo k : Nat} {b : Byte} {rest : Memory} :
    Memory.wfFrom lo ((k, b) :: rest) = true ↔
      lo ≤ k ∧ k < Config.memSize ∧ b ≠ initialByte k ∧ Memory.wfFrom (k + 1) rest = true := by
  simp only [Memory.wfFrom, Bool.and_eq_true, decide_eq_true_eq, and_assoc]

theorem Memory.find_cons (k : Nat) (b : Byte) (rest : Memory) (a : Nat) :
    Memory.find ((k, b) :: rest) a = if k = a then b else Memory.find rest a := rfl

/-- A canonical list reads as the reset content below its keys. -/
theorem Memory.find_below {m : Memory} {lo a : Nat} (hm : Memory.wfFrom lo m = true) (ha : a < lo) :
    Memory.find m a = initialByte a := by
  induction m generalizing lo with
  | nil => rfl
  | cons c rest ih =>
    obtain ⟨k, b⟩ := c
    obtain ⟨hlo, -, -, hrest⟩ := Memory.wfFrom_cons.mp hm
    rw [Memory.find_cons, if_neg (by omega), ih hrest (by omega)]

/-- A listed byte differs from the reset content, so a list that reads as the reset content at `k` and is canonical from
`k` on does not begin at `k`: two canonical lists that read the same begin with the same cell. -/
theorem Memory.ext_find {m m' : Memory} {lo : Nat} (hm : Memory.wfFrom lo m = true) (hm' : Memory.wfFrom lo m' = true)
    (h : ∀ a, lo ≤ a → a < Config.memSize → Memory.find m a = Memory.find m' a) : m = m' := by
  induction m generalizing m' lo with
  | nil =>
    cases m' with
    | nil => rfl
    | cons c' rest' =>
      obtain ⟨k', b'⟩ := c'
      obtain ⟨hlo', hk', hb', -⟩ := Memory.wfFrom_cons.mp hm'
      have hread := h k' hlo' hk'
      rw [Memory.find_cons, if_pos rfl] at hread
      exact absurd hread.symm hb'
  | cons c rest ih =>
    obtain ⟨k, b⟩ := c
    obtain ⟨hlo, hk, hb, hrest⟩ := Memory.wfFrom_cons.mp hm
    cases m' with
    | nil =>
      have hread := h k hlo hk
      rw [Memory.find_cons, if_pos rfl] at hread
      exact absurd hread hb
    | cons c' rest' =>
      obtain ⟨k', b'⟩ := c'
      obtain ⟨hlo', hk', hb', hrest'⟩ := Memory.wfFrom_cons.mp hm'
      obtain hlt | rfl | hgt := Nat.lt_trichotomy k k'
      · have hread := h k hlo hk
        rw [Memory.find_cons, if_pos rfl, Memory.find_cons, if_neg (by omega), Memory.find_below hrest' (by omega)] at hread
        exact absurd hread hb
      · have hread := h k hlo hk
        rw [Memory.find_cons, if_pos rfl, Memory.find_cons, if_pos rfl] at hread
        have htail : rest = rest' := ih hrest hrest' fun a ha hmax => by
          have hreadA := h a (by omega) hmax
          rwa [Memory.find_cons, if_neg (by omega), Memory.find_cons, if_neg (by omega)] at hreadA
        rw [hread, htail]
      · have hread := h k' hlo' hk'
        rw [Memory.find_cons, if_neg (by omega), Memory.find_below hrest (by omega), Memory.find_cons, if_pos rfl] at hread
        exact absurd hread.symm hb'

/-- Settles O38: reads at the 4096 addresses are reads at the keys below 4096. -/
theorem canonicalMemoriesAreEqualData : Obligations.CanonicalMemoriesAreEqualData := by
  intro m m' hm hm' hread
  refine Memory.ext_find hm hm' fun a _ ha => ?_
  have hnat : (BitVec.ofNat 12 a).toNat = a := (BitVec.toNat_ofNat a 12).trans (Nat.mod_eq_of_lt ha)
  have hreadA := hread (BitVec.ofNat 12 a)
  rwa [Memory.read, Memory.read, hnat] at hreadA

end Sys2Proof.Machine
end

section
/-! The display family, continued (44_display.md): a sprite's pixels, drawing twice, who writes the framebuffer, the port
that shows it, and the step outputs (40_dispatch.md R138, R139). -/

namespace Sys2Proof.Machine

/-! ### DRW (R251) -/

/-- The pixels a sprite covers are those that are drawn. -/
theorem mem_spritePixels_iff_covers {s : State} {x y : Reg} {n : Nat} {p : Pixel} :
    p ∈ spritePixels (s.reg x) (s.reg y) 0 (s.spriteRows n) ↔ Covers s x y n p := by
  have hrow (k : Nat) (hk : k < (s.spriteRows n).length) : (s.spriteRows n)[k] = s.readI k := by
    simp [State.spriteRows]
  have hlen : (s.spriteRows n).length = n := by simp [State.spriteRows]
  rw [mem_spritePixels]
  constructor
  · rintro ⟨r, hr, hp⟩
    rw [hrow r hr, Nat.zero_add] at hp
    obtain ⟨c, hc, hbit, hp1, hp2⟩ := mem_rowPixels.mp hp
    exact ⟨r, c, hlen ▸ hr, hc, hbit, hp1, hp2⟩
  · rintro ⟨r, c, hr, hc, hbit, hp1, hp2⟩
    refine ⟨r, hlen.symm ▸ hr, ?_⟩
    rw [hrow, Nat.zero_add]
    exact mem_rowPixels.mpr ⟨c, hc, hbit, hp1, hp2⟩

/-- The pixels of a sprite of at most 15 rows are distinct. -/
theorem spriteRows_pixels_nodup (s : State) (x y : Reg) (n : Fin 16) :
    (spritePixels (s.reg x) (s.reg y) 0 (s.spriteRows n.val)).Nodup := by
  refine spritePixels_nodup _ _ _ _ ?_
  rw [State.spriteRows, List.length_map, List.length_range]
  omega

/-- Drawing inverts the covered pixels and no other. -/
theorem drawSprite_get (s : State) (x y : Reg) (n : Fin 16) (p : Pixel) :
    (Covers s x y n.val p → Framebuffer.get (s.drawSprite x y n.val).1 p = !s.pixel p) ∧
      (¬ Covers s x y n.val p → Framebuffer.get (s.drawSprite x y n.val).1 p = s.pixel p) := by
  have hget := drawPixels_get (spriteRows_pixels_nodup s x y n) s.fb false p
  rw [State.drawSprite, hget, ← mem_spritePixels_iff_covers]
  refine ⟨fun hp => ?_, fun hp => ?_⟩
  · rw [decide_eq_true hp, Bool.xor_true]
    rfl
  · rw [decide_eq_false hp, Bool.xor_false]
    rfl

/-- Drawing collides when a covered pixel is on. -/
theorem drawSprite_hit (s : State) (x y : Reg) (n : Fin 16) :
    (s.drawSprite x y n.val).2 = true ↔ ∃ p, Covers s x y n.val p ∧ s.pixel p = true := by
  rw [State.drawSprite, drawPixels_hit (spriteRows_pixels_nodup s x y n)]
  simp only [Bool.false_eq_true, false_or, mem_spritePixels_iff_covers]
  rfl

/-- What a sprite covers is decided by its position and its bytes. -/
theorem covers_congr {s u : State} {x y : Reg} {n : Nat} (hx : u.reg x = s.reg x) (hy : u.reg y = s.reg y)
    (hrows : ∀ k < n, u.readI k = s.readI k) (p : Pixel) : Covers u x y n p ↔ Covers s x y n p := by
  unfold Covers
  rw [hx, hy]
  refine exists_congr fun r => exists_congr fun c => and_congr_right fun hr => ?_
  rw [hrows r hr]

/-- Settles O40: the pixels drawn are the covered ones, each once; VF is written with the collision. -/
theorem drawInvertsCoveredPixels : Obligations.DrawInvertsCoveredPixels := by
  intro x y n s
  have hvf : (s.setReg vf (flagByte (s.drawSprite x y n.val).2)).reg vf = flagByte (s.drawSprite x y n.val).2 :=
    State.reg_setReg_same s vf _
  refine ⟨_, rfl, fun p => (drawSprite_get s x y n p).1, fun p => (drawSprite_get s x y n p).2, ?_, ?_, rfl, rfl,
    exec_frame (i := .drw x y n) rfl⟩
  · rw [← drawSprite_hit, ← flagByte_eq_one]
    exact Eq.congr_left hvf
  · exact hvf.symm ▸ flagByte_zero_or_one _

/-- Settles O41: the second draw covers the same pixels, so each is inverted twice; it collides where the first turned a
pixel on. -/
theorem drawTwiceIsAnInvolution : Obligations.DrawTwiceIsAnInvolution := by
  intro x y n s t u w hfirst hfb hi hx hy hrows hsecond
  obtain ⟨t', hfirst', hon, hoff, -⟩ := drawInvertsCoveredPixels x y n s
  obtain rfl := next_inj (hfirst'.symm.trans hfirst)
  obtain ⟨w', hsecond', hon', hoff', hvf, -⟩ := drawInvertsCoveredPixels x y n u
  obtain rfl := next_inj (hsecond'.symm.trans hsecond)
  have hcovers := covers_congr hx hy hrows
  have hpixel (p : Pixel) : u.pixel p = t'.pixel p := by rw [State.pixel, State.pixel, hfb]
  refine ⟨Framebuffer.ext_get fun p => ?_, hvf.trans (exists_congr fun p => ?_)⟩
  · by_cases hp : Covers s x y n.val p
    · calc w'.pixel p = !u.pixel p := hon' p ((hcovers p).mpr hp)
        _ = !!s.pixel p := by rw [hpixel, hon p hp]
        _ = s.pixel p := Bool.not_not _
    · calc w'.pixel p = u.pixel p := hoff' p fun hp' => hp ((hcovers p).mp hp')
        _ = s.pixel p := by rw [hpixel, hoff p hp]
  · rw [hcovers p]
    refine and_congr_right fun hp => ?_
    rw [hpixel, hon p hp, Bool.not_eq_true']

/-! ### The port `fb` (10_state.md R41) -/

/-- The first `n` rows of the port: bit `64*r + c` is that of row `r`, if it is among them. -/
theorem fbRows_getLsbD (fb : Framebuffer) {n : Nat} (hn : n ≤ 32) (p : Pixel) :
    (fbRows fb n).getLsbD (64 * p.1.val + p.2.val) = (decide (p.1.val < n) && Framebuffer.get fb p) := by
  obtain ⟨r, c⟩ := p
  have hr := r.isLt
  have hc := c.isLt
  induction n with
  | zero => simp [fbRows]
  | succ n ih =>
    have hrow : fb.getD n 0#64 = fb[n] := by simp [Vector.getD, show n < 32 by omega]
    rw [fbRows, BitVec.getLsbD_or, ih (by omega), BitVec.getLsbD_shiftLeft, BitVec.getLsbD_setWidth, hrow]
    obtain hlt | heq | hgt := Nat.lt_trichotomy r.val n
    · simp [hlt, show r.val < n + 1 by omega, show 64 * r.val + c.val < 64 * n by omega]
    · subst heq
      simp [Framebuffer.get, show 64 * r.val + c.val < 2048 by omega, show c.val < 2048 by omega]
    · have hout : 64 ≤ 64 * r.val + c.val - 64 * n := by omega
      simp [BitVec.getLsbD_of_ge _ _ hout, show ¬ r.val < n by omega, show ¬ r.val < n + 1 by omega]

theorem State.fbPort_getLsbD (s : State) (p : Pixel) : s.fbPort.getLsbD (64 * p.1.val + p.2.val) = s.pixel p := by
  rw [State.fbPort, fbRows_getLsbD s.fb (Nat.le_refl 32), decide_eq_true p.1.isLt, Bool.true_and, State.pixel]

/-! ### Who writes the framebuffer -/

theorem display_of_writes_pixel {s : State} {i : Instr} {p : Pixel} (h : instrWrites s i (.pixel p)) :
    i = .cls ∨ ∃ x y n, i = .drw x y n := by
  cases i with
  | cls => exact .inl rfl
  | drw x y n => exact .inr ⟨x, y, n, rfl⟩
  | _ => simp [instrWrites] at h

/-- Settles O42: a changed pixel was written by the instruction at PC; a host read writes the outputs only. -/
theorem onlyClsAndDrawWriteTheFramebuffer : Obligations.OnlyClsAndDrawWriteTheFramebuffer := by
  refine ⟨fun e s t p h hrst hne => ?_, fun s => ⟨_, rfl, s.fbPort_getLsbD, unchanged_clearOutputs s⟩⟩
  have hframe := applyEvent_frame h (.pixel p)
  cases e with
  | step =>
    obtain ⟨i, hm, -, hd, hwrites, -⟩ := dispatcherStep_changed (p := .pixel p) h hne (by simp [pollWrites])
    obtain rfl | ⟨x, y, n, rfl⟩ := display_of_writes_pixel hwrites
    · exact ⟨rfl, hm, .inl hd⟩
    · exact ⟨rfl, hm, .inr ⟨x, y, n, hd⟩⟩
  | rst => exact absurd rfl hrst
  | _ => exact absurd (hframe (by simp [hostWrites])) hne

/-! ### The step outputs (40_dispatch.md R138, R139) -/

/-- From a state without an output, `exec` asserts the strobe for CLS and DRW only. -/
theorem exec_fbStrobe {i : Instr} {s t : State} (h : exec i s = .next t) (hs : s.fbStrobe = false) :
    t.fbStrobe = true ↔ i = .cls ∨ ∃ x y n, i = .drw x y n := by
  have hframe := exec_frame h .fbStrobe
  cases i with
  | cls =>
    obtain rfl := next_inj h
    simp
  | drw x y n =>
    obtain rfl := next_inj h
    simp
  | _ =>
    have hsame : t.fbStrobe = s.fbStrobe := hframe (by simp [instrWrites])
    simp [hsame, hs]

/-- From a state without an output, `exec` logs an unknown opcode for SYS only. -/
theorem exec_unkEvt {i : Instr} {s t : State} (h : exec i s = .next t) (hs : s.unk = none) :
    t.unkEvt = true ↔ ∃ nnn, i = .sys nnn := by
  have hframe := exec_frame h .unk
  cases i with
  | sys nnn =>
    obtain rfl := next_inj h
    simp [State.unkEvt]
  | _ =>
    have hsame : t.unk = s.unk := hframe (by simp [instrWrites])
    simp [State.unkEvt, hsame, hs]

/-- The wait poll sets no output. -/
theorem waitPoll_outputs (r : Reg) (s : State) :
    (waitPoll r s).fbStrobe = s.fbStrobe ∧ (waitPoll r s).unk = s.unk :=
  ⟨unchanged_waitPoll r s .fbStrobe (by simp), unchanged_waitPoll r s .unk (by simp)⟩

/-- An event other than a step leaves the outputs at 0 (R139). -/
theorem applyEvent_outputs {e : HostEvent} {s t : State} (h : applyEvent e s = .next t) (he : e ≠ .step) :
    t.fbStrobe = false ∧ t.unk = none := by
  obtain ⟨rfl, -⟩ | ⟨-, rfl⟩ | ⟨_, -, rfl⟩ | ⟨-, rfl⟩ | ⟨_, _, -, -, rfl⟩ | ⟨_, -, -, -, rfl⟩ | ⟨-, rfl⟩ :=
    applyEvent_cases h
  · exact absurd rfl he
  · obtain ⟨-, htick⟩ | ⟨-, htick⟩ := tick_cases s
    · rw [htick]
      exact ⟨rfl, rfl⟩
    · rw [htick]
      exact ⟨rfl, rfl⟩
  all_goals exact ⟨rfl, rfl⟩

/-- Settles O43: the step clears both outputs and then only `exec`, or the policy for an unknown word, sets one. -/
theorem outputsDescribeTheStepJustTaken : Obligations.OutputsDescribeTheStepJustTaken := by
  intro s t
  refine ⟨fun h => ?_, fun e h he => ?_⟩
  · obtain ⟨_, hm, rfl⟩ | ⟨r, hm, rfl⟩ | ⟨_, -, hf, rfl⟩ | ⟨i, hm, hf, hd, hexec⟩ | ⟨op, hm, hf, hd, rfl⟩ :=
      dispatcherStep_cases h
    · simp [hm, State.unkEvt]
    · obtain ⟨hstrobe, hunk⟩ := waitPoll_outputs r s.clearOutputs.start
      simp [hm, State.unkEvt, hstrobe, hunk]
    · have hpc : ¬ Fetchable s.pc := fun hpc => by simp [fetchError_none.mpr hpc] at hf
      simp [eq_false hpc, State.unkEvt]
    · have hpc : Fetchable s.pc := fetchError_none.mp hf
      rw [exec_fbStrobe hexec rfl, exec_unkEvt hexec rfl]
      simp [hm, eq_true hpc, hd]
    · have hpc : Fetchable s.pc := fetchError_none.mp hf
      simp [hm, eq_true hpc, hd, State.unkEvt]
  · obtain ⟨hstrobe, hunk⟩ := applyEvent_outputs h he
    simp [hstrobe, hunk, State.unkEvt, State.unkOp, State.unkPc]

end Sys2Proof.Machine
end

section
/-! Keys and timers (45_timers_keys.md, 60_exceptions.md): the key skips, the key wait and its poll, ticks by MODE, who writes
KEY; and the status ports (10_state.md R34). -/

namespace Sys2Proof.Machine

/-! ### Timers and keys by instruction (R273, R274, R322) -/

theorem State.keyDown_lowNibble (s : State) (b : Byte) : s.keyDown (lowNibble b) = s.key.getLsbD (b.toNat % 16) := by
  rw [State.keyDown, lowNibble_val]

/-- Settles O46: a tick of a Halted CORE clears the outputs only; a waiting one counts down as a Running one does. -/
theorem ticksStopOnlyWhenHalted : Obligations.TicksStopOnlyWhenHalted := by
  intro s
  refine ⟨fun code hm => ?_, fun r hm => ?_⟩
  · obtain ⟨-, htick⟩ | ⟨hno, -⟩ := tick_cases s
    · refine ⟨tick s, rfl, ?_⟩
      rw [htick]
      exact ⟨rfl, rfl, unchanged_clearOutputs s⟩
    · exact absurd hm (hno code)
  · obtain ⟨hdt, hst, hframe⟩ := tick_spec (s := s) (by simp [hm])
    refine ⟨tick s, rfl, (hframe .mode (by simp)).trans hm, ?_, ?_⟩
    · rw [hdt, countDown_toNat]
    · rw [hst, countDown_toNat]

/-- Settles O47: both are skips, on the key of the low nibble and on its negation. -/
theorem keySkipsTestTheKey : Obligations.KeySkipsTestTheKey := by
  intro x s
  rw [← s.keyDown_lowNibble]
  refine ⟨⟨_, rfl, s.skipIf_spec _⟩, _, rfl, ?_⟩
  obtain ⟨hskip, hseq, hframe⟩ := s.skipIf_spec (!s.keyDown (lowNibble (s.reg x)))
  exact ⟨fun hup => hskip (by rw [hup]; rfl), fun hdown => hseq (by rw [hdown]; rfl), hframe⟩

/-! ### The key wait (R275, R276) -/

/-- Right after the latch no key has risen. -/
theorem risingKeys_of_latched {s : State} (h : s.keyPrev = s.key) : s.risingKeys = 0#16 := by
  rw [State.risingKeys, h]
  exact BitVec.and_not_self _

theorem State.risingKeys_getLsbD (s : State) (k : Fin 16) :
    s.risingKeys.getLsbD k.val = true ↔ s.key.getLsbD k.val = true ∧ s.keyPrev.getLsbD k.val = false := by
  simp [State.risingKeys]

theorem State.risingKeys_eq_zero {s : State}
    (h : ∀ k : Fin 16, ¬ (s.key.getLsbD k.val = true ∧ s.keyPrev.getLsbD k.val = false)) : s.risingKeys = 0#16 := by
  refine BitVec.eq_of_getLsbD_eq fun k hk => ?_
  have hbit := mt (s.risingKeys_getLsbD ⟨k, hk⟩).mp (h ⟨k, hk⟩)
  simpa using hbit

theorem waitPoll_of_no_key {s : State} (h : s.risingKeys = 0#16) (r : Reg) : waitPoll r s = s.latchKeys := by
  rw [waitPoll, lowestKey_none.mpr h]

/-- The lowest key that rose is the one with none below it. -/
theorem lowestKey_eq_some {e : BitVec 16} {k : Fin 16} (hk : e.getLsbD k.val = true)
    (hlow : ∀ j : Fin 16, j.val < k.val → ¬ e.getLsbD j.val = true) : lowestKey e = some k.val := by
  cases hfound : lowestKey e with
  | none =>
    rw [lowestKey_none.mp hfound, BitVec.getLsbD_zero] at hk
    cases hk
  | some j =>
    obtain ⟨hj, hbit, hbelow⟩ := lowestKey_some hfound
    obtain hlt | heq | hgt := Nat.lt_trichotomy j k.val
    · exact absurd hbit (hlow ⟨j, hj⟩ hlt)
    · rw [heq]
    · rw [hbelow k.val hgt] at hk
      cases hk

theorem waitPoll_of_lowest_key {s : State} {k : Nat} (h : lowestKey s.risingKeys = some k) (r : Reg) :
    waitPoll r s = ((s.latchKeys.setReg r (BitVec.ofNat 8 k)).seq).setMode .running := by
  rw [waitPoll, h]

/-- Settles O48: entering the wait latches KEY, so that the next poll sees no key rise. -/
theorem keyWaitIsEntered : Obligations.KeyWaitIsEntered := by
  intro x s
  refine ⟨_, rfl, rfl, rfl, rfl, exec_frame (i := .ldVxK x) rfl, _, dispatcherStep_waiting rfl, ?_⟩
  rw [waitPoll_of_no_key (risingKeys_of_latched rfl)]
  exact ⟨rfl, rfl, rfl⟩

/-- Settles O49: the poll resumes with the lowest key that rose, and without one it only latches KEY. -/
theorem waitPollResumesOnAKeyEdge : Obligations.WaitPollResumesOnAKeyEdge := by
  intro s r hm
  have hpoll := dispatcherStep_waiting hm
  refine ⟨fun k hdown hup hlow => ?_, fun hnone => ?_⟩
  · have hlowest : lowestKey s.risingKeys = some k.val :=
      lowestKey_eq_some ((s.risingKeys_getLsbD k).mpr ⟨hdown, hup⟩) fun j hj =>
        mt (s.risingKeys_getLsbD j).mp (hlow j hj)
    have hframe := (unchanged_clearOutputs_start s).mono
      (written' := fun p => p = .v r ∨ p = .pc ∨ p = .mode ∨ p = .keyPrev ∨ p = .fbStrobe ∨ p = .unk ∨ p = .started)
      (by rintro p (rfl | rfl | rfl) <;> simp)
    have hall := hframe.trans ((unchanged_waitPoll r s.clearOutputs.start).mono
      (by rintro p (rfl | rfl | rfl | rfl) <;> simp))
    refine ⟨_, hpoll, ?_⟩
    rw [waitPoll_of_lowest_key (s := s.clearOutputs.start) hlowest] at hall ⊢
    refine ⟨?_, rfl, rfl, rfl, hall⟩
    have hkey := congrArg BitVec.toNat (State.reg_setReg_same s.clearOutputs.start.latchKeys r (BitVec.ofNat 8 k.val))
    have hk := k.isLt
    exact hkey.trans ((BitVec.toNat_ofNat k.val 8).trans (Nat.mod_eq_of_lt (by omega)))
  · refine ⟨_, hpoll, ?_⟩
    rw [waitPoll_of_no_key (s := s.clearOutputs.start) (State.risingKeys_eq_zero hnone)]
    exact ⟨rfl, hm, ((unchanged_clearOutputs_start s).mono fun _ => .inr).trans
      ((unchanged_latchKeys _).mono fun _ => .inl)⟩

/-! ### Who writes KEY (60_exceptions.md R325) -/

theorem not_writes_key {s : State} {i : Instr} : ¬ instrWrites s i .key := by
  cases i <;> simp [instrWrites]

/-- Settles O50: no instruction writes KEY, and of the host's events only a key write and a reset do. -/
theorem onlyTheHostWritesKeys : Obligations.OnlyTheHostWritesKeys := by
  refine ⟨fun k s => ⟨_, rfl, rfl, unchanged_keyWrite k s⟩, fun e s t h hno hrst => ?_⟩
  have hframe := applyEvent_frame h .key
  cases e with
  | step =>
    by_contra hne
    obtain ⟨i, -, -, -, hwrites, -⟩ := dispatcherStep_changed (p := .key) h hne (by simp [pollWrites])
    exact not_writes_key hwrites
  | keyWrite k => exact absurd rfl (hno k)
  | rst => exact absurd rfl hrst
  | _ => exact hframe (by simp [hostWrites])

/-! ### The status ports (R34) -/

/-- Settles O51: each port is read off the state, the status ports by MODE. -/
theorem portsShowTheState : Obligations.PortsShowTheState := by
  intro s
  refine ⟨s.fbPort_getLsbD, s.tone_iff_pos.trans Nat.pos_iff_ne_zero, fun hm => ?_, fun r hm => ?_, fun code hm => ?_,
    fun hm => ?_, fun hm => ?_, fun hm => ?_, fun hm => ?_⟩
  · simp [State.statusMode, State.statusWaitReg, State.statusErr, hm]
  · have hr := r.isLt
    simp [State.statusMode, State.statusWaitReg, State.statusErr, hm]
  · simp [State.statusMode, State.statusWaitReg, hm]
  all_goals simp [State.statusErr, hm, HaltCode.number]

end Sys2Proof.Machine
end

section
/-! Reset and loading (70_reset_and_hazards.md): the reset contents of memory, and an image written byte by byte. -/

namespace Sys2Proof.Machine

/-! ### The reset contents (20_memory.md R72, R73) -/

theorem initialByte_above_font {a : Nat} (h : 0x050 ≤ a) : initialByte a = 0#8 := by
  have hbase : fontBase = 0 := rfl
  exact if_neg (by omega)

/-- The font at FONT_BASE, glyph by glyph. -/
theorem initialByte_font (d : Fin 16) (k : Fin 5) :
    initialByte (5 * d.val + k.val) = (fontTable.getD d.val []).getD k.val 0#8 := by
  revert d k
  decide

theorem rst_readMem (s : State) (a : Addr) : (rst s).readMem a = initialByte a.toNat := rfl

/-- Settles O52: reset is the reset state with the model's own two fields kept. -/
theorem resetRestoresEveryElement : Obligations.ResetRestoresEveryElement := by
  intro s
  have hreg (r : Reg) : (rst s).reg r = 0#8 := Vector.getElem_replicate r.isLt
  have hstack (j : Fin 16) : (rst s).stack[j.val] = 0#16 := Vector.getElem_replicate j.isLt
  refine ⟨rst s, rfl, hreg, rfl, rfl, rfl, hstack, rfl, rfl, fun p => Framebuffer.get_clear p, rfl, rfl, rfl, rfl, rfl, rfl,
    fun a ha => ?_, fun d k => ?_, fun p hp => ?_⟩
  · rw [rst_readMem, initialByte_above_font ha]
  · have hd := d.isLt
    have hk := k.isLt
    rw [rst_readMem, BitVec.toNat_ofNat, Nat.mod_eq_of_lt (by omega), initialByte_font]
  · cases p with
    | events => exact absurd (.inl rfl) hp
    | draws => exact absurd (.inr rfl) hp
    | _ => rfl

/-! ### The loader (R351, R352) -/

/-- The addresses that an image of `n` bytes at `a` fills. -/
def imageAddr (a n : Nat) (x : Addr) : Prop := ∃ j < n, x = BitVec.ofNat 12 (a + j)

/-- Writing an image writes its own addresses only. -/
theorem writeImage_outside (bs : List Byte) {m : Memory} {a : Nat} {x : Addr} (h : ¬ imageAddr a bs.length x) :
    (writeImage a bs m).read x = m.read x := by
  induction bs generalizing a m with
  | nil => rfl
  | cons b bs ih =>
    have hhead : BitVec.ofNat 12 a ≠ x := fun e => h ⟨0, Nat.succ_pos _, e.symm⟩
    have htail : ¬ imageAddr (a + 1) bs.length x := by
      rintro ⟨j, hj, rfl⟩
      exact h ⟨j + 1, Nat.succ_lt_succ hj, by rw [Nat.add_assoc, Nat.add_comm 1]⟩
    rw [writeImage, ih htail, Memory.read_write_other _ _ hhead]

/-- Writing an image that fits in memory puts byte `j` at `a + j`: what is written after it lies above. -/
theorem writeImage_inside {bs : List Byte} {m : Memory} {a j : Nat} (ha : a + bs.length ≤ 4096) (hj : j < bs.length) :
    (writeImage a bs m).read (BitVec.ofNat 12 (a + j)) = bs[j] := by
  induction bs generalizing a m j with
  | nil => exact absurd hj (Nat.not_lt_zero j)
  | cons b bs ih =>
    rw [List.length_cons] at ha hj
    cases j with
    | zero =>
      have hnat : (BitVec.ofNat 12 a).toNat = a := (BitVec.toNat_ofNat a 12).trans (Nat.mod_eq_of_lt (by omega))
      rw [Nat.add_zero, writeImage, writeImage_below bs (by omega) (by omega), Memory.read_write_same]
      rfl
    | succ j =>
      have hsum : a + (j + 1) = a + 1 + j := by omega
      rw [hsum, writeImage, ih (by omega) (Nat.lt_of_succ_lt_succ hj)]
      rfl

theorem applyEvent_load {s : State} (hs : s.started = false) (a : Addr) (b : Byte) :
    applyEvent (.load a b) s = .next (s.clearOutputs.writeMem a b) := by
  simp [applyEvent, load, hs]

theorem applyEvent_loadRom {s : State} (hs : s.started = false) {bytes : List Byte} (hlen : bytes.length ≤ 3584) :
    applyEvent (.loadRom (some bytes)) s = .next (s.clearOutputs.setMem (writeImage Config.romBase bytes s.mem)) := by
  have hmax : ¬ bytes.length > Config.romMax := Nat.not_lt.mpr hlen
  simp only [applyEvent, loadRom, hs, Bool.false_eq_true, if_false, if_neg hmax]

/-- Settles O53: an image within 3584 bytes of 0x200 ends within memory. -/
theorem romIsLoadedVerbatim : Obligations.RomIsLoadedVerbatim := by
  intro s hs
  refine ⟨fun bytes hlen => ?_, fun a b => ?_⟩
  · have hfits : Config.romBase + bytes.length ≤ 4096 := Nat.add_le_add_left hlen 0x200
    refine ⟨_, applyEvent_loadRom hs hlen, fun j hj => writeImage_inside hfits hj, ?_⟩
    refine (unchanged_clearOutputs_setMem s fun x hx => writeImage_outside bytes hx).mono fun p hp => hp.imp_left ?_
    rintro ⟨x, ⟨j, hj, rfl⟩, rfl⟩
    exact ⟨j, hj, rfl⟩
  · exact ⟨_, applyEvent_load hs a b, Memory.read_write_same _ _ _, unchanged_load s a b⟩

/-- Settles O54: an open window leaves the two faults, a closed one the refusal. -/
theorem loaderErrors : Obligations.LoaderErrors := by
  intro s
  refine ⟨fun hs => ⟨?_, fun bytes hlen => ?_⟩, fun hs => ⟨fun a b => ?_, fun image => ?_⟩⟩
  · simp [applyEvent, loadRom, hs]
  · have hmax : bytes.length > Config.romMax := hlen
    simp only [applyEvent, loadRom, hs, Bool.false_eq_true, if_false, if_pos hmax]
  · simp [applyEvent, load, hs]
  · simp [applyEvent, loadRom, hs]

end Sys2Proof.Machine
end

section
/-! The invariant (40_dispatch.md R133, 60_exceptions.md R302): it holds at reset, each update of the state that an event is
made of keeps it, and so does every event. -/

namespace Sys2Proof.Machine

/-! ### Updates that keep the invariant -/

theorem StateInv.popEvent {s : State} (h : StateInv s) : StateInv s.popEvent :=
  ⟨h.memory, h.stack, h.pcBound, h.oneOutput, h.waiting, h.halted⟩

theorem StateInv.setDt {s : State} (h : StateInv s) (b : Byte) : StateInv (s.setDt b) :=
  ⟨h.memory, h.stack, h.pcBound, h.oneOutput, h.waiting, h.halted⟩

theorem StateInv.setSt {s : State} (h : StateInv s) (b : Byte) : StateInv (s.setSt b) :=
  ⟨h.memory, h.stack, h.pcBound, h.oneOutput, h.waiting, h.halted⟩

theorem StateInv.latchKeys {s : State} (h : StateInv s) : StateInv s.latchKeys :=
  ⟨h.memory, h.stack, h.pcBound, h.oneOutput, h.waiting, h.halted⟩

theorem StateInv.clearOutputs {s : State} (h : StateInv s) : StateInv s.clearOutputs where
  memory := h.memory
  stack := h.stack
  pcBound := h.pcBound
  oneOutput _ := rfl
  waiting := h.waiting
  halted code hm :=
    have ⟨hstarted, _, _, hcause⟩ := h.halted code hm
    ⟨hstarted, rfl, rfl, hcause⟩

theorem StateInv.start {s : State} (h : StateInv s) : StateInv s.start where
  memory := h.memory
  stack := h.stack
  pcBound := h.pcBound
  oneOutput := h.oneOutput
  waiting r hm :=
    have ⟨_, hwait⟩ := h.waiting r hm
    ⟨rfl, hwait⟩
  halted code hm :=
    have ⟨_, hhalt⟩ := h.halted code hm
    ⟨rfl, hhalt⟩

theorem StateInv.keyWrite {s : State} (h : StateInv s) (k : BitVec 16) : StateInv (keyWrite k s) :=
  have hc := h.clearOutputs
  ⟨hc.memory, hc.stack, hc.pcBound, hc.oneOutput, hc.waiting, hc.halted⟩

/-- A Running machine owes no cause of a wait or a halt. -/
theorem StateInv.of_running {s : State} (hm : s.mode = .running) (hmem : s.mem.wf = true)
    (hstack : ∀ j : Fin 16, Fetchable s.stack[j.val]) (hpc : s.pc.toNat ≤ 0x10FE)
    (hout : s.fbStrobe = true → s.unk = none) : StateInv s :=
  ⟨hmem, hstack, hpc, hout, fun r hr => by simp [hm] at hr, fun code hc => by simp [hm] at hc⟩

/-- A halt that shows its cause. -/
theorem StateInv.halt {s : State} (h : StateInv s) {code : HaltCode} (hstarted : s.started = true)
    (hstrobe : s.fbStrobe = false) (hunk : s.unk = none) (hcause : HaltCause s code) :
    StateInv (s.setMode (.halted code)) where
  memory := h.memory
  stack := h.stack
  pcBound := h.pcBound
  oneOutput := h.oneOutput
  waiting r hr := by cases hr
  halted code' hc := by
    obtain rfl := Mode.halted.inj hc
    exact ⟨hstarted, hstrobe, hunk, hcause⟩

/-- A wait entered by the LD Vx, K at PC. -/
theorem StateInv.wait {s : State} (h : StateInv s) {x : Reg} (hstarted : s.started = true) (hpc : Fetchable s.pc)
    (hd : decode s.fetchWord = .instr (.ldVxK x)) : StateInv (s.setMode (.waitingForKey x)) where
  memory := h.memory
  stack := h.stack
  pcBound := h.pcBound
  oneOutput := h.oneOutput
  waiting r hr := by
    obtain rfl := Mode.waitingForKey.inj hr
    exact ⟨hstarted, hpc, hd⟩
  halted code hc := by cases hc

/-- While the loader's window is open the machine runs. -/
theorem StateInv.running_of_not_started {s : State} (h : StateInv s) (hs : s.started = false) : s.mode = .running := by
  cases hm : s.mode with
  | running => rfl
  | waitingForKey r =>
    obtain ⟨hstarted, -⟩ := h.waiting r hm
    simp [hs] at hstarted
  | halted code =>
    obtain ⟨hstarted, -⟩ := h.halted code hm
    simp [hs] at hstarted

/-! ### Memory, the stack and PC after an instruction -/

/-- Every instruction keeps memory canonical. -/
theorem exec_mem_wf {i : Instr} {s t : State} (h : exec i s = .next t) (hmem : s.mem.wf = true) : t.mem.wf = true := by
  cases i with
  | call nnn =>
    obtain ⟨-, rfl⟩ | ⟨-, rfl⟩ := execCall_cases h
    · exact hmem
    · rwa [State.setPc_mem, State.push_mem]
  | ret =>
    obtain ⟨-, rfl⟩ | ⟨-, rfl⟩ := execRet_cases h
    · exact hmem
    · exact hmem
  | seByte x kk | sneByte x kk | seReg x y | sneReg x y | skp x | sknp x =>
    obtain rfl := next_inj h
    rwa [State.skipIf_eq, State.setPc_mem]
  | ldB x =>
    obtain rfl := next_inj h
    exact Memory.wf_write (Memory.wf_write (Memory.wf_write hmem _ _) _ _) _ _
  | storeRegs x =>
    obtain rfl := next_inj h
    exact State.storeUpTo_wf hmem _
  | loadRegs x =>
    obtain rfl := next_inj h
    obtain ⟨v, hv⟩ := s.loadUpTo_eq (x.val + 1)
    rw [hv]
    exact hmem
  | _ =>
    obtain rfl := next_inj h
    exact hmem

/-- A stack slot after an instruction is the slot before, or the address of the CALL. -/
theorem exec_stack {i : Instr} {s t : State} (h : exec i s = .next t) (j : Fin 16) :
    t.stack[j.val] = s.stack[j.val] ∨ t.stack[j.val] = s.pc := by
  by_cases hsame : t.stack[j.val] = s.stack[j.val]
  · exact .inl hsame
  · obtain ⟨⟨nnn, rfl⟩, hj⟩ := call_of_writes_stack (instrWrites_of_changed (p := .stack j) h hsame)
    exact .inr (execCall_slot h hj)

/-- The values PC can take by an instruction executed in `s`: held, SEQ, SKIP, a target of JP or CALL, a target of JP V0, a
return (40_dispatch.md R137). -/
inductive PcSource (s : State) : Word → Prop where
  | held : PcSource s s.pc
  | seq : PcSource s (s.pc + 2#16)
  | skip : PcSource s (s.pc + 4#16)
  | target (nnn : Addr) : PcSource s (zextAddr nnn)
  | sum (nnn : Addr) (b : Byte) : PcSource s (zextAddr nnn + zextByte b)
  | popped (h : 0 < s.sp.val) : PcSource s (s.top + 2#16)

theorem PcSource.skipIf (s : State) (cond : Bool) : PcSource s (s.skipIf cond).pc := by
  cases cond
  · exact .seq
  · exact .skip

theorem exec_pc {i : Instr} {s t : State} (h : exec i s = .next t) : PcSource s t.pc := by
  cases i with
  | call nnn =>
    obtain ⟨-, rfl⟩ | ⟨-, rfl⟩ := execCall_cases h
    · exact .held
    · exact .target nnn
  | ret =>
    obtain ⟨-, rfl⟩ | ⟨hpos, rfl⟩ := execRet_cases h
    · exact .held
    · exact .popped hpos
  | jp nnn =>
    obtain rfl := next_inj h
    exact .target nnn
  | jpV0 nnn =>
    obtain rfl := next_inj h
    exact .sum nnn _
  | seByte x kk | sneByte x kk | seReg x y | sneReg x y | skp x | sknp x =>
    obtain rfl := next_inj h
    exact PcSource.skipIf s _
  | ldVxK x =>
    obtain rfl := next_inj h
    exact .held
  | storeRegs x =>
    obtain ⟨t', ht', hpc, -⟩ := exec_storeRegs_spec x s
    obtain rfl := next_inj (ht'.symm.trans h)
    exact hpc ▸ .seq
  | loadRegs x =>
    obtain ⟨t', ht', hpc, -⟩ := exec_loadRegs_spec x s
    obtain rfl := next_inj (ht'.symm.trans h)
    exact hpc ▸ .seq
  | _ =>
    obtain rfl := next_inj h
    exact .seq

/-- From a fetchable PC and fetchable stack slots, no PC source is above the largest target of JP V0. -/
theorem PcSource.bound {s : State} {a : Word} (ha : PcSource s a) (hpc : Fetchable s.pc)
    (hstack : ∀ j : Fin 16, Fetchable s.stack[j.val]) : a.toNat ≤ 0x10FE := by
  obtain ⟨hle, -⟩ := hpc
  cases ha with
  | held => omega
  | seq =>
    rw [BitVec.toNat_add]
    simp only [BitVec.toNat_ofNat]
    omega
  | skip =>
    rw [BitVec.toNat_add]
    simp only [BitVec.toNat_ofNat]
    omega
  | target nnn =>
    have hn := nnn.isLt
    rw [zextAddr_toNat]
    omega
  | sum nnn b =>
    have hn := nnn.isLt
    have hb := b.isLt
    rw [jpV0_target_toNat]
    omega
  | popped hpos =>
    have hsp := s.sp.isLt
    have hslot := hstack ⟨s.sp.val - 1, by omega⟩
    obtain ⟨-, hret, -⟩ := returnAddress_spec s.top
    have htop : s.top = s.stack[s.sp.val - 1] := rfl
    obtain ⟨-, hbound⟩ := hret (htop ▸ hslot)
    omega

/-! ### Every event keeps the invariant -/

/-- The fetch check's error is the cause of the halt (R65, R301). -/
theorem haltCause_of_fetchError {s : State} {code : HaltCode} (h : fetchError s.pc = some code) : HaltCause s code := by
  unfold fetchError at h
  split_ifs at h with hrange hodd
  · obtain rfl := Option.some.inj h
    exact hrange
  · obtain rfl := Option.some.inj h
    exact ⟨Nat.le_of_not_lt hrange, hodd⟩

/-- An instruction keeps the invariant, executed where it was fetched, in a Running machine with its outputs cleared. -/
theorem StateInv.exec {s t : State} {i : Instr} (h : StateInv s) (hm : s.mode = .running) (hstarted : s.started = true)
    (hstrobe : s.fbStrobe = false) (hunk : s.unk = none) (hpc : Fetchable s.pc) (hd : decode s.fetchWord = .instr i)
    (hexec : exec i s = .next t) : StateInv t := by
  obtain hmode | ⟨nnn, rfl, hsp, rfl⟩ | ⟨rfl, hsp, rfl⟩ | ⟨x, rfl, rfl⟩ := exec_mode_cases hexec
  · refine StateInv.of_running (hmode.trans hm) (exec_mem_wf hexec h.memory) (fun j => ?_)
      ((exec_pc hexec).bound hpc h.stack) fun hout => ?_
    · obtain hslot | hslot := exec_stack hexec j
      · exact hslot ▸ h.stack j
      · exact hslot ▸ hpc
    · have hno : ¬ t.unkEvt = true := by
        obtain rfl | ⟨x, y, n, rfl⟩ := (exec_fbStrobe hexec hstrobe).mp hout
        · simp [exec_unkEvt hexec hunk]
        · simp [exec_unkEvt hexec hunk]
      simpa [State.unkEvt] using hno
  · exact h.halt hstarted hstrobe hunk ⟨hsp, hpc, nnn, hd⟩
  · exact h.halt hstarted hstrobe hunk ⟨hsp, hpc, hd⟩
  · exact h.latchKeys.wait hstarted hpc hd

/-- A poll keeps the invariant: it goes on waiting, or resumes after the LD Vx, K. -/
theorem StateInv.waitPoll {s : State} {r : Reg} (h : StateInv s) (hm : s.mode = .waitingForKey r) :
    StateInv (waitPoll r s) := by
  obtain ⟨-, hpc, -⟩ := h.waiting r hm
  obtain ⟨-, hpoll⟩ | ⟨k, -, hpoll⟩ := waitPoll_cases r s
  · rw [hpoll]
    exact h.latchKeys
  · rw [hpoll]
    exact StateInv.of_running rfl h.memory h.stack (PcSource.seq.bound hpc h.stack) h.oneOutput

theorem StateInv.dispatcherStep {s t : State} (h : StateInv s) (hstep : dispatcherStep s = .next t) : StateInv t := by
  have hs := h.clearOutputs.start
  obtain ⟨_, -, rfl⟩ | ⟨r, hm, rfl⟩ | ⟨code, -, hf, rfl⟩ | ⟨i, hm, hf, hd, hexec⟩ | ⟨op, hm, hf, -, rfl⟩ :=
    dispatcherStep_cases hstep
  · exact h.clearOutputs
  · exact hs.waitPoll hm
  · exact hs.halt rfl rfl rfl (haltCause_of_fetchError hf)
  · exact hs.exec hm rfl rfl rfl (fetchError_none.mp hf) hd hexec
  · exact StateInv.of_running hm h.memory h.stack (PcSource.seq.bound (fetchError_none.mp hf) h.stack)
      fun hout => by cases hout

theorem StateInv.tick {s : State} (h : StateInv s) : StateInv (tick s) := by
  obtain ⟨-, htick⟩ | ⟨-, htick⟩ := tick_cases s
  · rw [htick]
    exact h.clearOutputs
  · rw [htick]
    exact (h.clearOutputs.setDt _).setSt _

/-- The loader keeps the invariant: its window is open only while the machine runs, and it writes memory only. -/
theorem StateInv.loaded {s : State} (h : StateInv s) (hs : s.started = false) {m : Memory} (hmem : m.wf = true) :
    StateInv (s.clearOutputs.setMem m) :=
  StateInv.of_running (h.running_of_not_started hs) hmem h.stack h.pcBound fun hout => by cases hout

/-- Settles O55: memory lists nothing, the stack and PC are small literals, and the machine runs. -/
theorem resetMeetsTheInvariant : Obligations.ResetMeetsTheInvariant :=
  StateInv.of_running rfl Memory.wf_nil (by decide) (by decide) fun hout => by cases hout

theorem StateInv.rst (s : State) : StateInv (rst s) :=
  have h := resetMeetsTheInvariant
  ⟨h.memory, h.stack, h.pcBound, h.oneOutput, h.waiting, h.halted⟩

theorem StateInv.applyEvent {e : HostEvent} {s t : State} (h : StateInv s) (hevent : applyEvent e s = .next t) :
    StateInv t := by
  obtain ⟨-, hstep⟩ | ⟨-, rfl⟩ | ⟨k, -, rfl⟩ | ⟨-, rfl⟩ | ⟨a, b, -, hs, rfl⟩ | ⟨bs, -, hs, -, rfl⟩ | ⟨-, rfl⟩ :=
    applyEvent_cases hevent
  · exact h.dispatcherStep hstep
  · exact h.tick
  · exact h.keyWrite k
  · exact h.clearOutputs
  · exact h.loaded hs (Memory.wf_write h.memory a b)
  · exact h.loaded hs (writeImage_wf h.memory _ bs)
  · exact StateInv.rst s

/-- Settles O56: a step is one event, and every event keeps the invariant. -/
theorem stepKeepsTheInvariant : Obligations.StepKeepsTheInvariant :=
  fun _ _ h hstep => h.popEvent.applyEvent hstep

end Sys2Proof.Machine
end

section
/-! Runs of events (10_state.md R42, 70_reset_and_hazards.md): steps take the list in order, a machine at rest stays at rest,
and a fair schedule runs its timers out. -/

namespace Sys2Proof.Machine

/-! ### The list of events is not read by an event (log 1) -/

/-- The state with another list of events to come. -/
def State.withEvents (s : State) (es : List HostEvent) : State := { s with events := es }

theorem State.storeUpTo_withEvents (s : State) (es : List HostEvent) (n : Nat) :
    (s.withEvents es).storeUpTo n = (s.storeUpTo n).withEvents es := by
  induction n with
  | zero => rfl
  | succ n ih =>
    rw [State.storeUpTo, ih]
    rfl

theorem State.loadUpTo_withEvents (s : State) (es : List HostEvent) (n : Nat) :
    (s.withEvents es).loadUpTo n = (s.loadUpTo n).withEvents es := by
  induction n with
  | zero => rfl
  | succ n ih =>
    rw [State.loadUpTo, ih]
    rfl

theorem State.skipIf_withEvents (s : State) (es : List HostEvent) (cond : Bool) :
    (s.withEvents es).skipIf cond = (s.skipIf cond).withEvents es := by
  cases cond <;> rfl

theorem State.push_withEvents (s : State) (es : List HostEvent) (w : Word) :
    (s.withEvents es).push w = (s.push w).withEvents es := by
  unfold State.push
  by_cases h : s.sp.val < 16
  · rw [dif_pos h, dif_pos (show (s.withEvents es).sp.val < 16 from h)]
    rfl
  · rw [dif_neg h, dif_neg (show ¬ (s.withEvents es).sp.val < 16 from h)]

theorem exec_withEvents {i : Instr} {s t : State} (h : exec i s = .next t) (es : List HostEvent) :
    exec i (s.withEvents es) = .next (t.withEvents es) := by
  cases i with
  | call nnn =>
    obtain ⟨hsp, rfl⟩ | ⟨hsp, rfl⟩ := execCall_cases h
    · exact exec_call_full hsp
    · rw [exec_call_push (s := s.withEvents es) hsp, State.push_withEvents]
      rfl
  | ret =>
    obtain ⟨hsp, rfl⟩ | ⟨hsp, rfl⟩ := execRet_cases h
    · exact exec_ret_empty hsp
    · exact exec_ret_pop (s := s.withEvents es) hsp
  | seByte x kk | sneByte x kk | seReg x y | sneReg x y | skp x | sknp x =>
    obtain rfl := next_inj h
    exact congrArg _ (State.skipIf_withEvents s es _)
  | storeRegs x =>
    obtain rfl := next_inj h
    exact congrArg (fun u => Host.Outcome.next (State.seq u)) (State.storeUpTo_withEvents s es _)
  | loadRegs x =>
    obtain rfl := next_inj h
    exact congrArg (fun u => Host.Outcome.next (State.seq u)) (State.loadUpTo_withEvents s es _)
  | _ =>
    obtain rfl := next_inj h
    rfl

theorem waitPoll_withEvents (r : Reg) (s : State) (es : List HostEvent) :
    waitPoll r (s.withEvents es) = (waitPoll r s).withEvents es := by
  have hrising : (s.withEvents es).risingKeys = s.risingKeys := rfl
  unfold waitPoll
  rw [hrising]
  cases lowestKey s.risingKeys <;> rfl

theorem dispatcherStep_withEvents {s t : State} (h : dispatcherStep s = .next t) (es : List HostEvent) :
    dispatcherStep (s.withEvents es) = .next (t.withEvents es) := by
  obtain ⟨_, hm, rfl⟩ | ⟨r, hm, rfl⟩ | ⟨_, hm, hf, rfl⟩ | ⟨i, hm, hf, hd, hexec⟩ | ⟨op, hm, hf, hd, rfl⟩ :=
    dispatcherStep_cases h
  · exact dispatcherStep_halted hm
  · exact (dispatcherStep_waiting (s := s.withEvents es) hm).trans (congrArg _ (waitPoll_withEvents r s.clearOutputs.start es))
  · exact dispatcherStep_badPc (s := s.withEvents es) hm hf
  · exact (dispatcherStep_instr (s := s.withEvents es) hm hf hd).trans (exec_withEvents hexec es)
  · obtain ⟨rfl, -⟩ := decode_unknown_right hd
    exact dispatcherStep_unknown (s := s.withEvents es) hm hf hd

theorem tick_withEvents (s : State) (es : List HostEvent) : tick (s.withEvents es) = (tick s).withEvents es := by
  have hmode : (s.withEvents es).mode = s.mode := rfl
  unfold tick
  rw [hmode]
  cases s.mode <;> rfl

theorem applyEvent_withEvents {e : HostEvent} {s t : State} (h : applyEvent e s = .next t) (es : List HostEvent) :
    applyEvent e (s.withEvents es) = .next (t.withEvents es) := by
  obtain ⟨rfl, hstep⟩ | ⟨rfl, rfl⟩ | ⟨k, rfl, rfl⟩ | ⟨rfl, rfl⟩ | ⟨a, b, rfl, hs, rfl⟩ | ⟨bs, rfl, hs, hlen, rfl⟩ |
    ⟨rfl, rfl⟩ := applyEvent_cases h
  · exact dispatcherStep_withEvents hstep es
  · exact congrArg _ (tick_withEvents s es)
  · rfl
  · rfl
  · exact applyEvent_load (s := s.withEvents es) hs a b
  · exact applyEvent_loadRom (s := s.withEvents es) hs hlen
  · rfl

/-! ### Runs, event by event -/

theorem runEvents_cons {e : HostEvent} {es : List HostEvent} {s t : State} (h : runEvents (e :: es) s = .next t) :
    ∃ u, applyEvent e s = .next u ∧ runEvents es u = .next t := by
  unfold runEvents at h
  split at h
  · exact ⟨_, ‹_›, h⟩
  · cases h
  · cases h

theorem runEvents_cons_of_next {e : HostEvent} {s u : State} (h : applyEvent e s = .next u) (es : List HostEvent) :
    runEvents (e :: es) s = runEvents es u := by
  rw [runEvents, h]

theorem runEvents_withEvents {es : List HostEvent} {s t : State} (h : runEvents es s = .next t) (es' : List HostEvent) :
    runEvents es (s.withEvents es') = .next (t.withEvents es') := by
  induction es generalizing s with
  | nil =>
    obtain rfl := next_inj h
    rfl
  | cons e es ih =>
    obtain ⟨u, hevent, hrest⟩ := runEvents_cons h
    rw [runEvents_cons_of_next (applyEvent_withEvents hevent es'), ih hrest]

theorem run_succ_of_next (M : Host.Core) {s u : M.State} (h : M.step s = .next u) (n : Nat) :
    M.run (n + 1) s = M.run n u := by
  rw [Host.Core.run, h]

theorem runSteps_succ_of_next {s u : State} (h : step s = .next u) (n : Nat) : runSteps (n + 1) s = runSteps n u :=
  run_succ_of_next Sys2Proof.core h n

/-- Settles O57, by induction on the list: a step takes the first event from the state with the rest of the list, which
the event neither reads nor writes. -/
theorem stepsRunTheEventsInOrder : Obligations.StepsRunTheEventsInOrder := by
  intro es
  induction es with
  | nil =>
    intro s t hes hrun
    obtain rfl := next_inj hrun
    exact congrArg (fun es => Host.Outcome.next (s.withEvents es)) hes
  | cons e es ih =>
    intro s t hes hrun
    obtain ⟨u, hevent, hrest⟩ := runEvents_cons hrun
    have hnext : s.nextEvent = e := by rw [State.nextEvent, hes, List.headD_cons]
    have hpop : s.popEvent = s.withEvents es := by rw [State.popEvent, hes, List.tail_cons, State.withEvents]
    have hstep : step s = .next (u.withEvents es) := by
      rw [step, hnext, hpop]
      exact applyEvent_withEvents hevent es
    rw [List.length_cons, runSteps_succ_of_next hstep]
    exact ih (u.withEvents es) (t.withEvents es) rfl (runEvents_withEvents hrest es)

/-! ### A machine at rest (R372 (b)) -/

/-- A step at rest jumps to the jump: only the outputs and the window bit change. -/
theorem dispatcherStep_atRest {s : State} (h : AtRest s) : dispatcherStep s = .next s.clearOutputs.start := by
  obtain ⟨hm, hpc, hd⟩ := h
  have htarget : zextAddr (s.pc.setWidth 12) = s.pc := by
    apply BitVec.eq_of_toNat_eq
    rw [zextAddr_toNat, BitVec.toNat_setWidth]
    omega
  rw [dispatcherStep_instr hm (fetchError_none.mpr hpc) hd]
  exact congrArg (fun a => Host.Outcome.next (s.clearOutputs.start.setPc a)) htarget

/-- The parts that may change at rest. -/
def restWrites (p : Part) : Prop := p = .dt ∨ p = .st ∨ p = .key ∨ p = .fbStrobe ∨ p = .unk ∨ p = .started

/-- How many ticks an event is. -/
def tickCount (e : HostEvent) : Nat := if e = .tick then 1 else 0

/-- One event of a running CORE at rest: it answers, the machine stays at rest, and only a tick counts the timers down. -/
theorem applyEvent_atRest {e : HostEvent} {s : State} (h : AtRest s) (he : RunningEvent e) :
    ∃ t, applyEvent e s = .next t ∧ AtRest t ∧ Unchanged s t restWrites ∧
      t.dt.toNat = s.dt.toNat - tickCount e ∧ t.st.toNat = s.st.toNat - tickCount e := by
  cases e with
  | step =>
    exact ⟨_, dispatcherStep_atRest h, h, (unchanged_clearOutputs_start s).mono fun _ hp => .inr (.inr (.inr hp)), rfl, rfl⟩
  | tick =>
    have ⟨hrunning, _⟩ := h
    have hm : ∀ code, s.mode ≠ .halted code := by simp [hrunning]
    obtain ⟨hdt, hst, hframe⟩ := tick_spec hm
    refine ⟨_, rfl, ?_, hframe.mono ?_, ?_, ?_⟩
    · rw [tick_of_not_halted hm]
      exact h
    · rintro p (rfl | rfl | rfl | rfl) <;> simp [restWrites]
    · rw [hdt, countDown_toNat]
      rfl
    · rw [hst, countDown_toNat]
      rfl
  | keyWrite k =>
    refine ⟨_, rfl, h, (unchanged_keyWrite k s).mono ?_, rfl, rfl⟩
    rintro p (rfl | rfl | rfl) <;> simp [restWrites]
  | hostRead =>
    refine ⟨_, rfl, h, (unchanged_clearOutputs s).mono ?_, rfl, rfl⟩
    rintro p (rfl | rfl) <;> simp [restWrites]
  | load a b => exact he.elim
  | loadRom image => exact he.elim
  | rst => exact he.elim

/-- A run at rest, by induction on the events: each timer is lower by the number of ticks, or 0. -/
theorem runEvents_atRest {es : List HostEvent} {s : State} (h : AtRest s) (hes : ∀ e ∈ es, RunningEvent e) :
    ∃ t, runEvents es s = .next t ∧ AtRest t ∧ Unchanged s t restWrites ∧
      t.dt.toNat = s.dt.toNat - es.count .tick ∧ t.st.toNat = s.st.toNat - es.count .tick := by
  induction es generalizing s with
  | nil => exact ⟨s, rfl, h, fun p _ => by cases p <;> rfl, rfl, rfl⟩
  | cons e es ih =>
    obtain ⟨u, hevent, hu, hframe, hdt, hst⟩ := applyEvent_atRest h (hes e List.mem_cons_self)
    obtain ⟨t, hrun, ht, hframe', hdt', hst'⟩ := ih hu fun e' he' => hes e' (List.mem_cons_of_mem e he')
    have hcount : (e :: es).count .tick = es.count .tick + tickCount e := by
      simp [List.count_cons, tickCount]
    refine ⟨t, (runEvents_cons_of_next hevent es).trans hrun, ht, hframe.trans hframe', ?_, ?_⟩
    · rw [hcount, hdt', hdt]
      omega
    · rw [hcount, hst', hst]
      omega

/-- Settles O58: the run from a machine at rest is the one of `runEvents_atRest`. -/
theorem atRestNothingElseChanges : Obligations.AtRestNothingElseChanges := by
  intro es s t h hes hrun
  obtain ⟨t', hrun', ht, hframe, -⟩ := runEvents_atRest h hes
  obtain rfl := next_inj (hrun'.symm.trans hrun)
  exact ⟨ht, hframe⟩

/-! ### Fair schedules (R371) -/

theorem firstEvents_succ (sched : Nat → HostEvent) (n : Nat) :
    firstEvents sched (n + 1) = firstEvents sched n ++ [sched n] := by
  rw [firstEvents, List.range_succ, List.map_append]
  rfl

/-- A longer part of a schedule holds at least as many ticks. -/
theorem count_tick_mono (sched : Nat → HostEvent) {n n' : Nat} (h : n ≤ n') :
    (firstEvents sched n).count .tick ≤ (firstEvents sched n').count .tick :=
  ((List.range_sublist.mpr h).map sched).count_le _

/-- A fair schedule holds any number of ticks, by induction on the number: after `k` ticks there comes one more. -/
theorem exists_count_tick_ge {sched : Nat → HostEvent} (hfair : Fair sched) (k : Nat) :
    ∃ N, k ≤ (firstEvents sched N).count .tick := by
  obtain ⟨-, htick⟩ := hfair
  induction k with
  | zero => exact ⟨0, Nat.zero_le _⟩
  | succ k ih =>
    obtain ⟨N, hN⟩ := ih
    obtain ⟨m, hm, hsched⟩ := htick N
    have hmono := count_tick_mono sched hm
    refine ⟨m + 1, ?_⟩
    rw [firstEvents_succ, List.count_append, hsched, List.count_singleton_self]
    omega

/-- Settles O59: 255 ticks have run both timers out, and so have the ticks of every longer part of the schedule. -/
theorem fairScheduleRunsTimersOut : Obligations.FairScheduleRunsTimersOut := by
  intro sched s h hfair hrunning
  obtain ⟨N, hN⟩ := exists_count_tick_ge hfair 255
  refine ⟨N, fun n hn => ?_⟩
  have hevents : ∀ e ∈ firstEvents sched n, RunningEvent e := by
    intro e he
    obtain ⟨k, -, rfl⟩ := List.mem_map.mp he
    exact hrunning k
  obtain ⟨t, hrun, -, -, hdt, hst⟩ := runEvents_atRest h hevents
  have hticks := count_tick_mono sched hn
  have hd := s.dt.isLt
  have hs := s.st.isLt
  refine ⟨t, hrun, BitVec.eq_of_toNat_eq ?_, BitVec.eq_of_toNat_eq ?_⟩
  · rw [hdt, BitVec.toNat_zero]
    omega
  · rw [hst, BitVec.toNat_zero]
    omega

end Sys2Proof.Machine
end
